-- ==== Sys2Proof/Word.lean ====
section
/-! DEFINITION. The word types of the block (spec/00_scope.md R7, parameters `ADDR_WIDTH` and `DATA_WIDTH` of R4):
every quantity is unsigned. -/

namespace Sys2Proof

/-- A byte of the store, of the data lines and of the host channel (`u8`, `DATA_WIDTH` = 8, R4). -/
abbrev Byte := BitVec 8

/-- A bus address, and the address field of a command (`u16`, `ADDR_WIDTH` = 16, R4). -/
abbrev Addr := BitVec 16

/-- The size field of the `L` command (`u16`, R55, R61). -/
abbrev U16 := BitVec 16

end Sys2Proof
end

