-- ==== Sys2Proof/Syntax.lean ====
section
/-! DEFINITION. The thirteen operations of spec/opcode_table.json, one constructor per row: the ten host command cases
(R57, R143) and the three bus-cycle operations (R73). The block has no instruction set of its own (R1). -/

namespace Sys2Proof

/-- The three CPU-driven signals sampled at one instant (`SampleBus`, R8, R86): address, read/write line, SYNC. -/
structure BusSample where
  /-- The sixteen address lines. -/
  addr : Addr
  /-- `read_not_write`: true when the CPU is reading. -/
  rnw : Bool
  /-- SYNC, logical level: true when asserted. -/
  sync : Bool
deriving DecidableEq, Repr, Inhabited

/-- One row of the opcode table each. The address of a command is the bus address itself (R22, R60). -/
inductive Instr where
  /-- `R`, Reset, format `F0` (R115). -/
  | reset
  /-- `H`, Halt, format `F0` (R116). -/
  | halt
  /-- `C`, Continue, format `F0` (R117). -/
  | cont
  /-- `S`, Step, format `F0` (R118). -/
  | stepOne
  /-- `W addr data`, Write, format `FAD` (R125). -/
  | write (addr : Addr) (data : Byte)
  /-- `M addr`, Read, format `FA` (R126). -/
  | read (addr : Addr)
  /-- `L addr size data[0..size-1]`, Load, format `FAS` (R127). The data bytes are no field of the decoded command: the
  command takes each of them from the receive queue just before it writes it (R56, R127). -/
  | load (addr : Addr) (size : U16)
  /-- `B addr`, SetBreakpoint, format `FA` (R140). -/
  | setBreakpoint (addr : Addr)
  /-- `G`, GetRegisters, format `F0` (R142). -/
  | getRegisters
  /-- UNKNOWN: any other code byte, format `F0` (R143). -/
  | unknown (code : Byte)
  /-- `BUS.BPHIT`: the debug stop, selector `hit` = 1; `rnw` is the sampled read/write line (R87). -/
  | busBpHit (addr : Addr) (rnw : Bool)
  /-- `BUS.READ`: the CPU reads, selector `hit` = 0, `rnw` = 1 (R88). -/
  | busRead (addr : Addr)
  /-- `BUS.WRITE`: the CPU writes, selector `hit` = 0, `rnw` = 0; the data byte is sampled by the operation (R89). -/
  | busWrite (addr : Addr)
deriving DecidableEq, Repr

end Sys2Proof
end

