-- ==== Sys2Proof/WellFormed.lean ====
section
/-! DEFINITION. Which terms of `Instr` stand for an operation of the block. Every field value of every row is legal
(R36, R61, R73); the one check is that the UNKNOWN row takes none of the nine command codes (R64, R143). -/

namespace Sys2Proof

/-- The nine command codes, in the order of R57. -/
def commandCodes : List Byte := [0x52#8, 0x48#8, 0x43#8, 0x53#8, 0x57#8, 0x4D#8, 0x4C#8, 0x42#8, 0x47#8]

/-- An instruction that some input of the block selects: `unknown c` only for one of the 247 other byte values (R64). -/
def Instr.WellFormed : Instr → Bool
  | .unknown c => !commandCodes.contains c
  | .reset | .halt | .cont | .stepOne | .write _ _ | .read _ | .load _ _ | .setBreakpoint _ | .getRegisters
  | .busBpHit _ _ | .busRead _ | .busWrite _ => true

end Sys2Proof
end

