-- ==== Sys2Proof/Decode.lean ====
section
/-! DEFINITION. The decoder of host commands (R55 to R67), the selector of bus-cycle operations (R73), the encoder of both,
and the word form in which the opcode table numbers them. -/

namespace Sys2Proof

/-- Why no command stands at the head of a byte sequence. -/
inductive DecodeError where
  /-- No code byte is there. -/
  | noCode
  /-- The code byte is there and `missing` argument bytes have not arrived (R153). -/
  | argumentMissing (code : Byte) (missing : Nat)
deriving DecidableEq, Repr

/-- A 16-bit field from its two bytes, most significant first: `first * 256 + second` (R60). -/
def u16OfBytes (first second : Byte) : BitVec 16 := BitVec.ofNat 16 (first.toNat * 256 + second.toNat)

/-- The more significant byte of a 16-bit field (R60). -/
def u16High (v : BitVec 16) : Byte := BitVec.ofNat 8 (v.toNat / 256)

/-- The less significant byte of a 16-bit field (R60). -/
def u16Low (v : BitVec 16) : Byte := BitVec.ofNat 8 v.toNat

/-- How many fixed argument bytes follow a code byte (the formats of R55): `FA` two, `FAD` three, `FAS` four before its data
bytes, `F0` none. -/
def argumentBytes (code : Byte) : Nat :=
  if code = 0x57#8 then 3 else if code = 0x4D#8 then 2 else if code = 0x4C#8 then 4 else if code = 0x42#8 then 2 else 0

/-- A command of a format with argument bytes, whose code byte has been read. -/
def decodeArguments (code : Byte) (args : List Byte) : Except DecodeError (Instr × List Byte) :=
  match args with
  | ah :: al :: rest =>
    if code = 0x4D#8 then .ok (.read (u16OfBytes ah al), rest)
    else if code = 0x42#8 then .ok (.setBreakpoint (u16OfBytes ah al), rest)
    else match rest with
      | d :: rest₁ =>
        if code = 0x57#8 then .ok (.write (u16OfBytes ah al) d, rest₁)
        else match rest₁ with
          | sl :: rest₂ => .ok (.load (u16OfBytes ah al) (u16OfBytes d sl), rest₂)
          | [] => .error (.argumentMissing code 1)
      | [] => .error (.argumentMissing code (argumentBytes code - 2))
  | args => .error (.argumentMissing code (argumentBytes code - args.length))

/-- The command at the head of a byte sequence, and the bytes after its fixed part (R55, R56, R57). Every byte value
decodes: the nine codes by exact match, all others as UNKNOWN (R64, R65). -/
def decodeCommand (bytes : List Byte) : Except DecodeError (Instr × List Byte) :=
  match bytes with
  | [] => .error .noCode
  | code :: rest =>
    if code = 0x52#8 then .ok (.reset, rest)
    else if code = 0x48#8 then .ok (.halt, rest)
    else if code = 0x43#8 then .ok (.cont, rest)
    else if code = 0x53#8 then .ok (.stepOne, rest)
    else if code = 0x47#8 then .ok (.getRegisters, rest)
    else if argumentBytes code = 0 then .ok (.unknown code, rest)
    else decodeArguments code rest

/-- The bus-cycle operation selected by the two bits `hit` and `rnw` of R73, with the sampled address as its operand. SYNC
selects nothing. -/
def selectOperation (hit : Bool) (b : BusSample) : Instr :=
  if hit then .busBpHit b.addr b.rnw else if b.rnw then .busRead b.addr else .busWrite b.addr

/-- The two things that are encoded (30_encoding.md): bytes on the host channel, and the signals of one bus cycle together
with the comparator's answer. -/
inductive Encoded where
  | command (bytes : List Byte)
  | busCycle (hit : Bool) (sample : BusSample)
deriving DecidableEq, Repr

/-- The decoder over both encodings. -/
def decode : Encoded → Except DecodeError (Instr × List Byte)
  | .command bytes => decodeCommand bytes
  | .busCycle hit b => .ok (selectOperation hit b, [])

/-- The encoding of an operation (R55, R57, R73). `sync` is the SYNC level of a bus cycle, which selects nothing (R91). For
`L` it is the fixed part; the data bytes follow it on the channel (`encodeLoad`). -/
def encode (sync : Bool) : Instr → Encoded
  | .reset => .command [0x52#8]
  | .halt => .command [0x48#8]
  | .cont => .command [0x43#8]
  | .stepOne => .command [0x53#8]
  | .write a d => .command [0x57#8, u16High a, u16Low a, d]
  | .read a => .command [0x4D#8, u16High a, u16Low a]
  | .load a n => .command [0x4C#8, u16High a, u16Low a, u16High n, u16Low n]
  | .setBreakpoint a => .command [0x42#8, u16High a, u16Low a]
  | .getRegisters => .command [0x47#8]
  | .unknown c => .command [c]
  | .busBpHit a rnw => .busCycle true { addr := a, rnw := rnw, sync := sync }
  | .busRead a => .busCycle false { addr := a, rnw := true, sync := sync }
  | .busWrite a => .busCycle false { addr := a, rnw := false, sync := sync }

/-- A whole `L` command on the channel: format `FAS` with its data bytes (R55, R61). -/
def encodeLoad (addr : Addr) (data : List Byte) : List Byte :=
  let size : U16 := BitVec.ofNat 16 data.length
  [0x4C#8, u16High addr, u16Low addr, u16High size, u16Low size] ++ data

/-- Byte `k` of an instruction numbered as the opcode table numbers it: bit 0 is the least significant bit of the first
byte. -/
def tableByte (w k : Nat) : Byte := BitVec.ofNat 8 (w / 256 ^ k)

/-- The bytes of the fixed part of the command whose table number is `w`: the code byte and its argument bytes. -/
def tableCommandBytes (w : Nat) : List Byte :=
  (List.range (1 + argumentBytes (tableByte w 0))).map (tableByte w)

/-- Whether a table number is one of the 2-bit selectors of the BUS rows. A number below four is read as a selector: the
table gives the BUS rows those numbers, and the UNKNOWN row none of its own (log entry 7). -/
def tableIsBus (nbits w : Nat) : Bool := decide (nbits < 8) || decide (w < 4)

/-- The bus sample of a BUS row: bit 0 is `rnw` (R73); the address and SYNC have no bit in the table and are zero. -/
def tableSample (w : Nat) : BusSample := { addr := 0, rnw := w.testBit 0, sync := false }

/-- The instruction the decoder reads from an instruction whose bits are `w`, numbered as spec/opcode_table.json does. -/
def decodeTableWord (nbits w : Nat) : Option Instr :=
  if tableIsBus nbits w then some (selectOperation (w.testBit 1) (tableSample w))
  else match decodeCommand (tableCommandBytes w) with
    | .ok (i, _) => some i
    | .error _ => none

end Sys2Proof
end

