-- ==== Sys2Proof/Config.lean ====
section
/-! DEFINITION. What an implementation fixes (the parameters of R4) and the free values: answers of the external CPU and of
the host, of which the spec states no law (R6, R27, R28), and the OPEN parameters (`TEXT`, `NEWLINE`, the durations,
`RUN_CLOCK`). Free values are opaque constants with no body. -/

namespace Sys2Proof

/-- The parameters of R4 that a rule reads. They are fixed when the block is built (R194); State carries them so that a
statement about every state holds for every value of them. -/
structure Params where
  /-- `MEM_SIZE`, the number of bytes of the store. -/
  memSize : Nat
  /-- `BP_CAPACITY`, the number of breakpoint entries. -/
  bpCapacity : Nat
  /-- `SENTINEL`, the byte answered for an address outside the store. -/
  sentinel : Byte
  /-- `BP_HIT_COMMITS_WRITE`. -/
  bpHitCommitsWrite : Bool
  /-- `LOAD_ABORT_DRAINS`. -/
  loadAbortDrains : Bool
deriving DecidableEq, Repr

/-- The defaults of R4. -/
def Params.standard : Params :=
  { memSize := 4096, bpCapacity := 10, sentinel := 0xFF, bpHitCommitsWrite := false, loadAbortDrains := false }

/-- The ranges of R4: `1 <= MEM_SIZE <= 65536`; any `BP_CAPACITY`. -/
abbrev Params.Legal (p : Params) : Prop := 1 ≤ p.memSize ∧ p.memSize ≤ 65536

/-- The thirteen text kinds of R71 with what R125 to R143 pass to `TxText` or `raise`. -/
inductive Text where
  | statusReset
  | statusHalt
  | statusContinue
  | statusStep
  | statusWrite (addr : Addr)
  | statusLoad
  | statusBreakpoint (addr : Addr)
  | breakpointReached (addr : Addr)
  | invalidAddress (addr : Addr)
  | partialLoadFailure (addr : Addr) (offset : Nat)
  | breakpointTableFull (addr : Addr)
  | unsupportedOperation
  | unknownCommand (code : Byte)
deriving DecidableEq, Repr

/-- What the external CPU presents to one responder invocation: the three signals of `SampleBus`, the byte `SampleData`
would find on the data lines, and the level `SampleSync` finds after the invocation. The five values are independent
(R27; R103: the model that assumes less takes the second SYNC reading as a separate answer). -/
structure BusLines where
  /-- What `SampleBus` returns. -/
  sample : BusSample
  /-- What `SampleData` returns. -/
  data : Byte
  /-- What `SampleSync` returns. -/
  syncAfter : Bool
deriving DecidableEq, Repr, Inhabited

/-- What the host does before one step of the block: the bytes it appends to the receive queue (R6, R28) and how many bytes
the channel will accept from the block until the next step (`none`: any number). `TxByte` blocks beyond that (R8, R28). -/
structure HostTurn where
  /-- Bytes appended to the receive queue. -/
  sends : List Byte
  /-- How many bytes the transmit side accepts; `none` when it accepts every byte. -/
  room : Option Nat
deriving DecidableEq, Repr, Inhabited

/-- A turn in which the host sends nothing and accepts everything. -/
def HostTurn.quiet : HostTurn := { sends := [], room := none }

/-- FREE VALUE. The external CPU's n-th answer beyond the scripted ones: any sample may follow any other (R27, U15). -/
opaque Config.cpuAnswer : Nat → BusLines

/-- FREE VALUE. The host's n-th turn beyond the scripted ones: the host is under no law (R6). -/
opaque Config.hostAnswer : Nat → HostTurn

/-- FREE VALUE. The parameter `TEXT` without its final `NEWLINE` (R4, R71, D6): ASCII, so seven bits a character. -/
opaque Config.textBody : Text → List (BitVec 7)

/-- FREE VALUE. The first byte of the parameter `NEWLINE` ("one or two bytes", R4, D6). -/
opaque Config.newlineFirst : BitVec 7

/-- FREE VALUE. The second byte of `NEWLINE`, where there is one (R4, D6). -/
opaque Config.newlineSecond : Option (BitVec 7)

/-- FREE VALUE. The level of the free-running clock at the n-th step (`RUN_CLOCK`, R4, R18, D2). -/
opaque Config.runClock : Nat → Bool

/-- FREE VALUE. `T_SETTLE` less one unit (a positive duration with no value in the spec, R4, D19). -/
opaque Config.settleLessOne : Nat

/-- FREE VALUE. `T_CLK_ASSERT` less one unit (R4, D19). -/
opaque Config.clkAssertLessOne : Nat

/-- FREE VALUE. `T_CLK_DEASSERT` less one unit (R4, D19). -/
opaque Config.clkDeassertLessOne : Nat

/-- FREE VALUE. `T_RESET_LOW` less one unit (R4, D13). -/
opaque Config.resetLowLessOne : Nat

end Sys2Proof
end

