-- ==== Sys2Proof/Machine/State.lean ====
section
/-! DEFINITION. The state of the block (R10), the objects of its environment (R27, R28, R29), and the state after
power-on (R30). -/

namespace Sys2Proof.Machine

/-- `RUN`, the run state (R14). -/
inductive RunState where
  | running
  | halted
deriving DecidableEq, Repr

/-- `STEP`, the state of the step controller (R16, R100). -/
inductive StepState where
  | awaitSyncRise
  | awaitSyncFall
deriving DecidableEq, Repr

/-- The output events of R29. -/
inductive Event where
  | drive (b : Byte)
  | release
  | clkAssert
  | clkDeassert
  | resetLow
  | resetHigh
  | tx (b : Byte)
deriving DecidableEq, Repr

/-- Where the one thread of control stands between two steps (R26 (2), R45, R153): at the top of the main loop, or inside a
rule that waits or goes round a loop. -/
inductive Phase where
  /-- At the top of the main loop (R150). -/
  | atLoop
  /-- Inside a command: `got` are its bytes taken so far, the code byte first; an argument byte is missing (R153). -/
  | receiving (got : List Byte)
  /-- Inside `L`: the next data byte is `data[i]`, and `left` data bytes are still to be taken, that one included (R127). -/
  | loading (addr : Addr) (i left : Nat)
  /-- Inside an `L` that failed at offset `i` with `LOAD_ABORT_DRAINS` = true: `left` bytes are still to be discarded. -/
  | draining (addr : Addr) (i left : Nat)
  /-- Inside `S`, at the top of the Step loop (R100). -/
  | stepping
  /-- Inside the last `TxText` or `TxByte` of a command: `unsent` waits for the channel (R8, R28). -/
  | responding (unsent : List Byte)
  /-- Inside the `TxText` of a breakpoint notification (R87); `inStep` when the cycle belongs to a Step. -/
  | notifying (unsent : List Byte) (addr : Addr) (rnw inStep : Bool)
deriving DecidableEq, Repr

/-- The store's cells as address and byte pairs in canonical form: see `Memory.wf` (Machine/Ops.lean). -/
abbrev Memory := List Host.Cell

/-- Everything the spec gives the machine, as plain data. -/
structure State where
  /-- The parameters of R4: no step changes them (R194). -/
  cfg : Params
  /-- `MEM` (R10). -/
  mem : Memory
  /-- `BP[0] .. BP[BPCNT-1]` (R10, R15); `BPCNT` is the length of this list. -/
  bps : List Addr
  /-- `RUN` (R14). -/
  run : RunState
  /-- `STEP` (R16). -/
  stepState : StepState
  /-- `DOE`: true when the block drives the data lines (R17). -/
  doe : Bool
  /-- `DOUT` (R17). -/
  dout : Byte
  /-- `CLK` as the block's latch holds it, logical level (R18); `clockLine` is the line. -/
  clk : Bool
  /-- `RSTN`, electrical level: true is high, the inactive level (R19). -/
  rstn : Bool
  /-- `RXQ` (R28). -/
  rxq : List Byte
  /-- `TXQ`: every byte the block has sent (R28). -/
  txq : List Byte
  /-- Where the thread of control stands (R26, R153). -/
  phase : Phase
  /-- What the external CPU presents on the bus inputs (R27). -/
  lines : BusLines
  /-- How many bytes the host channel still accepts before the next step; `none`: any number (R28). -/
  txRoom : Option Nat
  /-- The CPU's coming answers, one a responder invocation; after them come free values (R27). -/
  cpuIn : List BusLines
  /-- How many free CPU answers have been used. -/
  cpuCount : Nat
  /-- The host's coming turns, one a step; after them come free values (R6, R28). -/
  hostIn : List HostTurn
  /-- How many free host turns have been used. -/
  hostCount : Nat
  /-- The output events so far, oldest first (R29). -/
  trace : List Event
deriving DecidableEq, Repr

/-- The block raises no fault: "No failure is fatal to the process", "The block has no fault that stops it" (R161), and an
address outside the store is answered, never trapped (R75, R76). The type is empty, so that no step can end in one. -/
inductive Fault where
deriving DecidableEq, Repr

/-- Why a step may have no meaning. -/
inductive Refusal where
  /-- An instruction with no meaning in this model, raised by an arm of `exec`; safe. No arm raises it. -/
  | notModelled (mnemonic : String)
deriving DecidableEq, Repr

/-- The block right after power-on (R30, R190). `mem` and `dout` are unspecified there: this state takes zero for both (log
entries 1, 2), and Safety's `PowerOn` is the set of all the states R30 allows. -/
def State.reset : State where
  cfg := Params.standard
  mem := []
  bps := []
  run := .running
  stepState := .awaitSyncRise
  doe := false
  dout := 0
  clk := false
  rstn := true
  rxq := []
  txq := []
  phase := .atLoop
  lines := { sample := { addr := 0, rnw := false, sync := false }, data := 0, syncAfter := false }
  txRoom := none
  cpuIn := []
  cpuCount := 0
  hostIn := []
  hostCount := 0
  trace := []

end Sys2Proof.Machine
end

