-- ==== Sys2Proof/Machine/Flags.lean ====
section
/-! DEFINITION. The one-bit and two-valued elements of the block and the only ways they change: `RUN`, `STEP`, `DOE`, `CLK`,
`RSTN` (R10, R14 to R20), with the output event of each (R29). The block has no condition codes and no status flags: an `ok`
is a result, used once (R13). -/

namespace Sys2Proof.Machine

/-- Append an output event to the trace (R29). -/
def record (e : Event) (s : State) : State := { s with trace := s.trace ++ [e] }

/-- `RUN <- Halted`. The run clock is gated off, so the clock line is held deasserted (R14, R18). -/
def setHalted (s : State) : State := { s with run := .halted, clk := false }

/-- `RUN <- Running` (R14). No clock pulse is made (R31). -/
def setRunning (s : State) : State := { s with run := .running }

/-- `STEP <- v` (R16). -/
def setStepState (v : StepState) (s : State) : State := { s with stepState := v }

/-- `DriveData(b)`: `DOUT <- b; DOE <- 1` (R8). -/
def driveData (b : Byte) (s : State) : State := record (.drive b) { s with dout := b, doe := true }

/-- `ReleaseData()`: `DOE <- 0`; the event is produced even when `DOE` was already 0 (R8, R29). -/
def releaseData (s : State) : State := record .release { s with doe := false }

/-- `ClkAssert()`: `CLK <- 1` (R8). -/
def clkAssert (s : State) : State := record .clkAssert { s with clk := true }

/-- `ClkDeassert()`: `CLK <- 0` (R8). -/
def clkDeassert (s : State) : State := record .clkDeassert { s with clk := false }

/-- `ResetLow()`: `RSTN <- 0` (R8). -/
def resetLow (s : State) : State := record .resetLow { s with rstn := false }

/-- `ResetHigh()`: `RSTN <- 1` (R8). -/
def resetHigh (s : State) : State := record .resetHigh { s with rstn := true }

/-- `Delay(T)`: changes no state (R8, R210). -/
def delay (_duration : Nat) (s : State) : State := s

/-- Whether the thread of control is inside a Step's loop. -/
def Phase.inStep : Phase → Bool
  | .stepping => true
  | .notifying _ _ _ b => b
  | .atLoop | .receiving _ | .loading _ _ _ | .draining _ _ _ | .responding _ => false

/-- The level of the CPU's clock line (R18): the waveform of the run clock while Running, the latch `CLK` otherwise. -/
def clockLine (s : State) : Bool :=
  match s.run with
  | .running => Config.runClock s.hostCount
  | .halted => s.clk

/-- The byte the block puts on the data lines; `none` when it does not drive them (R17). -/
def drivenByte (s : State) : Option Byte := if s.doe then some s.dout else none

/-- Whether the IRQ line is asserted: held inactive at all times (R20). -/
def irqAsserted (_s : State) : Bool := false

/-- Whether the NMI line is asserted: held inactive at all times (R20). -/
def nmiAsserted (_s : State) : Bool := false

/-- `T_SETTLE` (R4). -/
def tSettle : Nat := Config.settleLessOne + 1

/-- `T_CLK_ASSERT` (R4). -/
def tClkAssert : Nat := Config.clkAssertLessOne + 1

/-- `T_CLK_DEASSERT` (R4). -/
def tClkDeassert : Nat := Config.clkDeassertLessOne + 1

/-- `T_RESET_LOW` (R4). -/
def tResetLow : Nat := Config.resetLowLessOne + 1

/-- One clock pulse of the step controller (R101). -/
def clockPulse (s : State) : State :=
  delay tClkDeassert (clkDeassert (delay tClkAssert (clkAssert s)))

/-- The reset pulse of the `R` command (R115). -/
def resetPulse (s : State) : State := resetHigh (delay tResetLow (resetLow s))

end Sys2Proof.Machine
end

