-- ==== Sys2Proof/Machine/Operands.lean ====
section
/-! DEFINITION. Where operands come from: the CPU's bus inputs through `SampleBus`, `SampleData` and `SampleSync` (R8, R27),
the receive queue through `RxByte` (R8, R28), and the address sequence of `L` (R127). -/

namespace Sys2Proof.Machine

/-- A new bus cycle is on the lines: the CPU's next answer, from the script or free (R27). -/
def presentCycle (s : State) : State :=
  match s.cpuIn with
  | c :: cs => { s with lines := c, cpuIn := cs }
  | [] => { s with lines := Config.cpuAnswer s.cpuCount, cpuCount := s.cpuCount + 1 }

/-- `SampleBus()`: address, read/write line and SYNC, captured at one instant (R86). -/
def sampleBus (s : State) : BusSample := s.lines.sample

/-- `SampleData()`: the byte on the data lines while the block is not driving them (R8). -/
def sampleData (s : State) : Byte := s.lines.data

/-- `SampleSync()`: a second reading of SYNC, after the responder's own sample (R103). -/
def sampleSync (s : State) : Bool := s.lines.syncAfter

/-- The host's turn before a step: its bytes go to the end of the receive queue, and the channel's room is set (R6, R28). -/
def pollHost (s : State) : State :=
  match s.hostIn with
  | t :: ts => { s with rxq := s.rxq ++ t.sends, txRoom := t.room, hostIn := ts }
  | [] =>
    { s with rxq := s.rxq ++ (Config.hostAnswer s.hostCount).sends, txRoom := (Config.hostAnswer s.hostCount).room,
             hostCount := s.hostCount + 1 }

/-- `RxByte()`: the first byte of the receive queue and the state without it; `none` when the block must wait (R8). -/
def rxByte (s : State) : Option (Byte × State) :=
  match s.rxq with
  | [] => none
  | b :: rest => some (b, { s with rxq := rest })

/-- `(addr + i) mod 65536`, the address of data byte `i` of an `L` (R81 (5), R127). -/
def loadAddress (addr : Addr) (i : Nat) : Addr := addr + BitVec.ofNat 16 i

end Sys2Proof.Machine
end

