-- ==== Sys2Proof/Machine/Ops.lean ====
section
/-! DEFINITION. The named operations: the byte store (R75 to R77), the breakpoint table (R78 to R80), the host channel's
transmit side (R8, R28, R71), the report of an error (R161), the breakpoint stop (R87, R165), and the checksum helper
(R82). -/

namespace Sys2Proof.Machine

/-- What an address that the memory does not list reads as: MEM after power-on is unspecified, and this model takes zero
(log entry 1). -/
def Memory.unlisted : Byte := 0

/-- The canonical form: addresses strictly rising, and no entry equal to what an unlisted address reads as. -/
abbrev Memory.wf (m : Memory) : Prop :=
  List.Pairwise (fun c d : Host.Cell => c.1 < d.1) m ∧ ∀ c ∈ m, c.2 ≠ Memory.unlisted

/-- The byte of one cell. -/
def Memory.read : Memory → Nat → Byte
  | [], _ => Memory.unlisted
  | (k, v) :: m, a => if k = a then v else Memory.read m a

/-- The cells with one cell set, in canonical form. -/
def Memory.write : Memory → Nat → Byte → Memory
  | [], a, v => if v = Memory.unlisted then [] else [(a, v)]
  | (k, w) :: m, a, v =>
    if a < k then (if v = Memory.unlisted then (k, w) :: m else (a, v) :: (k, w) :: m)
    else if a = k then (if v = Memory.unlisted then m else (a, v) :: m)
    else (k, w) :: Memory.write m a v

/-- The range check: the unsigned comparison of the address with `MEM_SIZE` (R77). -/
def addressValid (s : State) (a : Addr) : Bool := decide (a.toNat < s.cfg.memSize)

/-- `MemRead(address, 1)` (R75). -/
def memRead (a : Addr) (s : State) : Byte × Bool :=
  if addressValid s a then (s.mem.read a.toNat, true) else (s.cfg.sentinel, false)

/-- `MemWrite(address, 1, byte)` (R76). -/
def memWrite (a : Addr) (b : Byte) (s : State) : State × Bool :=
  if addressValid s a then ({ s with mem := s.mem.write a.toNat b }, true) else (s, false)

/-- `BPCNT` (R10). -/
def bpCount (s : State) : Nat := s.bps.length

/-- `BpAdd(address)` (R78): it succeeds while `BPCNT < BP_CAPACITY` (R81 (3)). -/
def bpAdd (a : Addr) (s : State) : State × Bool :=
  if bpCount s < s.cfg.bpCapacity then ({ s with bps := s.bps ++ [a] }, true) else (s, false)

/-- `BpContains(address)` (R79). -/
def bpContains (a : Addr) (s : State) : Bool := s.bps.any (fun b => b == a)

/-- `Checksum(buffer)` (R82), outside the core: it reads and writes no state. -/
def checksum (buffer : List Byte) : Byte := buffer.foldl (fun c b => c ^^^ b) 0#8

/-- The bytes of the parameter `NEWLINE` (R4). -/
def newlineBytes : List Byte :=
  Config.newlineFirst.setWidth 8 :: Config.newlineSecond.toList.map (BitVec.setWidth 8)

/-- `TEXT(kind, payload)`: ASCII, ended by `NEWLINE` (R4, R71). -/
def textBytes (t : Text) : List Byte := (Config.textBody t).map (BitVec.setWidth 8) ++ newlineBytes

/-- Bytes the channel accepts: appended to the transmit queue, one `Tx` event each (R28, R29). -/
def deliver (bs : List Byte) (s : State) : State :=
  { s with txq := s.txq ++ bs, trace := s.trace ++ bs.map Event.tx }

/-- `TxByte` for each byte, as far as the channel has room; the second component is what is still unsent (R8, R28). -/
def transmit (bs : List Byte) (s : State) : State × List Byte :=
  match s.txRoom with
  | none => (deliver bs s, [])
  | some n => (deliver (bs.take n) { s with txRoom := some (n - bs.length) }, bs.drop n)

/-- The last transmission of a command; when every byte is sent, control returns to the main loop (R151). -/
def sendResponse (bs : List Byte) (s : State) : State :=
  let r := transmit bs s
  match r.2 with
  | [] => { r.1 with phase := .atLoop }
  | b :: rest => { r.1 with phase := .responding (b :: rest) }

/-- `TxText(kind, payload)` as the end of a command. -/
def respond (t : Text) (s : State) : State := sendResponse (textBytes t) s

/-- `raise <Error>(info)`: send the text and return to the main loop; nothing is saved and nothing else changes (R8,
R161). -/
def raiseError (t : Text) (s : State) : State := respond t s

/-- `BUS.WRITE(a)` (R89): release the data lines, sample the byte the CPU drives, store it; `ok` is unused. -/
def serveWrite (a : Addr) (s : State) : State :=
  let s := releaseData s
  (memWrite a (sampleData s) s).1

/-- `BUS.READ(a)` (R88): drive the stored byte or the sentinel for `T_SETTLE`, then release; `ok` is unused. -/
def serveRead (a : Addr) (s : State) : State :=
  releaseData (delay tSettle (driveData (memRead a s).1 s))

/-- What follows the notification of a hit: release the data lines and, with `BP_HIT_COMMITS_WRITE`, serve a write (R87). -/
def endHit (a : Addr) (rnw : Bool) (s : State) : State :=
  let s := releaseData s
  if s.cfg.bpHitCommitsWrite && !rnw then serveWrite a s else s

/-- The breakpoint stop (R87, R165): `RUN <- Halted`, the notification, the release. Where the channel is not ready for the
whole notification the block waits inside it. -/
def debugStop (a : Addr) (rnw : Bool) (s : State) : State :=
  let r := transmit (textBytes (.breakpointReached a)) (setHalted s)
  match r.2 with
  | [] => endHit a rnw r.1
  | b :: rest => { r.1 with phase := .notifying (b :: rest) a rnw s.phase.inStep }

/-- The end of an aborted `L` with `LOAD_ABORT_DRAINS` = true: take and discard `left` bytes, waiting where one has not
arrived, then report (R127). -/
def drainLoad (addr : Addr) (i : Nat) : Nat → State → State
  | 0, s => raiseError (.partialLoadFailure addr i) s
  | left + 1, s =>
    match rxByte s with
    | none => { s with phase := .draining addr i (left + 1) }
    | some (_, s') => drainLoad addr i left s'

/-- The abort of an `L` at offset `i` with `left` data bytes after the failing one (R127, R63). -/
def abortLoad (addr : Addr) (i left : Nat) (s : State) : State :=
  if s.cfg.loadAbortDrains then drainLoad addr i left s else raiseError (.partialLoadFailure addr i) s

/-- The loop of `L` from offset `i` with `left` data bytes still to take (R127): take a byte, write it, and go on, abort or
wait for the byte. -/
def loadBytes (addr : Addr) : Nat → Nat → State → State
  | 0, _, s => respond .statusLoad s
  | left + 1, i, s =>
    match rxByte s with
    | none => { s with phase := .loading addr i (left + 1) }
    | some (b, s') =>
      let r := memWrite (loadAddress addr i) b s'
      if r.2 then loadBytes addr left (i + 1) r.1 else abortLoad addr i left r.1

end Sys2Proof.Machine
end

