-- ==== Sys2Proof/Machine/BusCycle.lean ====
section
/-! DEFINITION. The three bus-cycle operations of the responder (41_bus_responder.md). -/

namespace Sys2Proof.Machine

/-- `BUS.BPHIT` (R87). -/
def execBusBpHit (addr : Addr) (rnw : Bool) (s : State) : Host.Outcome State Fault Refusal :=
  .next (debugStop addr rnw s)

/-- `BUS.READ` (R88). -/
def execBusRead (addr : Addr) (s : State) : Host.Outcome State Fault Refusal := .next (serveRead addr s)

/-- `BUS.WRITE` (R89). -/
def execBusWrite (addr : Addr) (s : State) : Host.Outcome State Fault Refusal := .next (serveWrite addr s)

end Sys2Proof.Machine
end

