-- ==== Sys2Proof/Machine/MemoryCommands.lean ====
section
/-! DEFINITION. The memory commands `W`, `M`, `L` (44_memory_commands.md). -/

namespace Sys2Proof.Machine

/-- `W`, Write (R125). -/
def execWrite (addr : Addr) (data : Byte) (s : State) : Host.Outcome State Fault Refusal :=
  let r := memWrite addr data s
  .next (if r.2 then respond (.statusWrite addr) r.1 else raiseError (.invalidAddress addr) r.1)

/-- `M`, Read (R126): one raw byte, or the error text. -/
def execRead (addr : Addr) (s : State) : Host.Outcome State Fault Refusal :=
  let r := memRead addr s
  .next (if r.2 then sendResponse [r.1] s else raiseError (.invalidAddress addr) s)

/-- `L`, Load (R127): the data bytes come from the receive queue. -/
def execLoad (addr : Addr) (size : U16) (s : State) : Host.Outcome State Fault Refusal :=
  .next (loadBytes addr size.toNat 0 s)

end Sys2Proof.Machine
end

