-- ==== Sys2Proof/Machine/MiscCommands.lean ====
section
/-! DEFINITION. The breakpoint, register and unknown commands `B`, `G`, UNKNOWN (45_breakpoint_and_misc_commands.md). -/

namespace Sys2Proof.Machine

/-- `B`, SetBreakpoint (R140). -/
def execSetBreakpoint (addr : Addr) (s : State) : Host.Outcome State Fault Refusal :=
  let r := bpAdd addr s
  .next (if r.2 then respond (.statusBreakpoint addr) r.1 else raiseError (.breakpointTableFull addr) r.1)

/-- `G`, GetRegisters (R142): always the unsupported-operation text. -/
def execGetRegisters (s : State) : Host.Outcome State Fault Refusal := .next (raiseError .unsupportedOperation s)

/-- UNKNOWN (R143): the unknown-command text. -/
def execUnknown (code : Byte) (s : State) : Host.Outcome State Fault Refusal :=
  .next (raiseError (.unknownCommand code) s)

end Sys2Proof.Machine
end

