-- ==== Sys2Proof/Machine/RunControl.lean ====
section
/-! DEFINITION. The run-control commands `R`, `H`, `C`, `S` (43_run_control_commands.md). -/

namespace Sys2Proof.Machine

/-- `R`, Reset of the CPU (R115): the reset pulse, `RUN <- Running`, the status text. -/
def execReset (s : State) : Host.Outcome State Fault Refusal :=
  .next (respond .statusReset (setRunning (resetPulse s)))

/-- `H`, Halt (R116). -/
def execHalt (s : State) : Host.Outcome State Fault Refusal := .next (respond .statusHalt (setHalted s))

/-- `C`, Continue (R117). -/
def execContinue (s : State) : Host.Outcome State Fault Refusal := .next (respond .statusContinue (setRunning s))

/-- `S`, Step (R118, R100): `RUN <- Halted; STEP <- AwaitSyncRise`, and the thread of control enters the Step loop. Each
iteration of that loop is one step of the machine (`stepIteration`), so that a Step that never ends is an infinite execution
(R105); its exit sends the status text (`controllerTransition`). -/
def execStep (s : State) : Host.Outcome State Fault Refusal :=
  .next { setStepState .awaitSyncRise (setHalted s) with phase := .stepping }

end Sys2Proof.Machine
end

