-- ==== Sys2Proof/Machine/Dispatch.lean ====
section
/-! DEFINITION. The dispatch on the operation: one arm per row of spec/opcode_table.json (R73, R151). -/

namespace Sys2Proof.Machine

def exec (i : Instr) (s : State) : Host.Outcome State Fault Refusal :=
  match i with
  | .reset => Sys2Proof.Machine.execReset s
  | .halt => Sys2Proof.Machine.execHalt s
  | .cont => Sys2Proof.Machine.execContinue s
  | .stepOne => Sys2Proof.Machine.execStep s
  | .write addr data => Sys2Proof.Machine.execWrite addr data s
  | .read addr => Sys2Proof.Machine.execRead addr s
  | .load addr size => Sys2Proof.Machine.execLoad addr size s
  | .setBreakpoint addr => Sys2Proof.Machine.execSetBreakpoint addr s
  | .getRegisters => Sys2Proof.Machine.execGetRegisters s
  | .unknown code => Sys2Proof.Machine.execUnknown code s
  | .busBpHit addr rnw => Sys2Proof.Machine.execBusBpHit addr rnw s
  | .busRead addr => Sys2Proof.Machine.execBusRead addr s
  | .busWrite addr => Sys2Proof.Machine.execBusWrite addr s

end Sys2Proof.Machine
end

