-- ==== Sys2Proof/Machine/MainLoop.lean ====
section
/-! DEFINITION. The control flow: the responder invocation (R85), the step controller's iteration (R100 to R106), the taking
of a command from the receive queue (R56, R150, R153), and one step of the main loop (R150). -/

namespace Sys2Proof.Machine

/-- One responder invocation, `BusCycle()` (R85): sample the bus once, compare the address with the breakpoint table, and
perform the one operation the two bits select (R73). It does not read `RUN`. -/
def busCycle (s : State) : Host.Outcome State Fault Refusal :=
  let s := presentCycle s
  exec (selectOperation (bpContains (sampleBus s).addr s) (sampleBus s)) s

/-- The controller's transition on its SYNC sample (R103); the exit sends the status text of `S` (R104, R118). -/
def controllerTransition (s : State) : State :=
  match s.stepState, sampleSync s with
  | .awaitSyncRise, true => setStepState .awaitSyncFall s
  | .awaitSyncRise, false => s
  | .awaitSyncFall, true => s
  | .awaitSyncFall, false => respond .statusStep s

/-- What the Step loop does when the responder has returned: sample SYNC, unless the responder is still inside the sending of
a notification. -/
def afterResponder (s : State) : State :=
  match s.phase with
  | .notifying _ _ _ _ => s
  | _ => controllerTransition s

/-- One iteration of the Step loop (R100): a clock pulse, one responder invocation, one SYNC sample. -/
def stepIteration (s : State) : Host.Outcome State Fault Refusal :=
  match busCycle (clockPulse s) with
  | .next t => .next (afterResponder t)
  | .fault r => .fault r
  | .refused r => .refused r

/-- The rest of a breakpoint notification, once the channel accepts it; then the end of the hit, and back into the Step loop
or to the main loop (R87, R106). -/
def resumeNotification (unsent : List Byte) (addr : Addr) (rnw inStep : Bool) (s : State) : State :=
  let r := transmit unsent s
  match r.2 with
  | [] =>
    let t := endHit addr rnw r.1
    if inStep then controllerTransition { t with phase := .stepping } else { t with phase := .atLoop }
  | b :: rest => { r.1 with phase := .notifying (b :: rest) addr rnw inStep }

/-- Take a command whose bytes taken so far are `got` (R56, R153): when its fixed part is complete it runs; otherwise all that
has arrived is taken and the block waits inside the command. -/
def takeCommand (got : List Byte) (s : State) : Host.Outcome State Fault Refusal :=
  match decodeCommand (got ++ s.rxq) with
  | .ok (i, rest) => exec i { s with rxq := rest, phase := .atLoop }
  | .error _ => .next { s with rxq := [], phase := .receiving (got ++ s.rxq) }

/-- One iteration of the main loop (R150): a waiting command first; else, while Running, one responder invocation; else
nothing. -/
def mainLoop (s : State) : Host.Outcome State Fault Refusal :=
  match s.rxq with
  | _ :: _ => takeCommand [] s
  | [] =>
    match s.run with
    | .running => busCycle s
    | .halted => .next s

/-- One step of the block's thread of control from where it stands. -/
def advance (s : State) : Host.Outcome State Fault Refusal :=
  match s.phase with
  | .atLoop => mainLoop s
  | .receiving got => takeCommand got s
  | .loading addr i left => .next (loadBytes addr left i s)
  | .draining addr i left => .next (drainLoad addr i left s)
  | .stepping => stepIteration s
  | .responding unsent => .next (sendResponse unsent s)
  | .notifying unsent addr rnw inStep => .next (resumeNotification unsent addr rnw inStep s)

/-- One step of the machine: the host's turn, then the block's. -/
def machineStep (s : State) : Host.Outcome State Fault Refusal := advance (pollHost s)

/-- The state in which the bytes of a command stand at the head of the receive queue and the main loop takes them next, with
a host turn that sends nothing and accepts every byte. -/
def placeCommand (bytes : List Byte) (s : State) : State :=
  { s with phase := .atLoop, rxq := bytes ++ s.rxq, hostIn := HostTurn.quiet :: s.hostIn }

/-- The breakpoint table with the address in it or out of it, as the BUS row's `hit` bit asks, within `BP_CAPACITY`. -/
def placeHit (hit : Bool) (addr : Addr) (s : State) : List Addr :=
  if hit then (if bpContains addr s then s.bps else addr :: s.bps.take (s.cfg.bpCapacity - 1))
  else s.bps.filter (fun b => b != addr)

/-- The state in which the main loop serves the given bus sample next: Running, no command byte waiting, the CPU presenting
the sample with a data byte of zero, and the table answering `hit`. -/
def placeCycle (hit : Bool) (b : BusSample) (s : State) : State :=
  { s with phase := .atLoop, run := .running, rxq := [], bps := placeHit hit b.addr s,
           cpuIn := { sample := b, data := 0, syncAfter := b.sync } :: s.cpuIn,
           hostIn := HostTurn.quiet :: s.hostIn }

/-- The state whose next step runs the operation that the opcode table numbers `w`. -/
def placeTableWord (s : State) (nbits w : Nat) : State :=
  if tableIsBus nbits w then placeCycle (w.testBit 1) (tableSample w) s else placeCommand (tableCommandBytes w) s

end Sys2Proof.Machine
end

