-- ==== Sys2Proof/Machine/Step.lean ====
section
/-! DEFINITION. The step of the machine, and the placing of an instruction where the next step runs it. -/

namespace Sys2Proof.Machine

/-- One step of the machine (R150, R153): the host's turn, then one iteration of the main loop, one iteration of a Step, or
the rest of what the block waits in. -/
def step (s : State) : Host.Outcome State Fault Refusal := machineStep s

/-- The state whose next step runs the instruction that the opcode table numbers `w` (log entry 7). -/
def State.withFetchWord (s : State) (nbits w : Nat) : State := placeTableWord s nbits w

end Sys2Proof.Machine
end

