-- ==== Sys2Proof/Laws/PerInstr.lean ====
section
/-! SUPPORT. The families of statements made for every constructor of `Instr`. -/

namespace Sys2Proof.Laws.FixedLength

/-- The number of bytes of a host command before any data byte of `L`: 1, 3, 4 or 5 by its format (R55, R63); a bus-cycle
operation has no byte on the channel (R73). -/
def fixedBytes : Instr → Nat
  | .reset | .halt | .cont | .stepOne | .getRegisters | .unknown _ => 1
  | .read _ | .setBreakpoint _ => 3
  | .write _ _ => 4
  | .load _ _ => 5
  | .busBpHit _ _ | .busRead _ | .busWrite _ => 0

/-- How many channel bytes an encoding has. -/
def channelBytes : Encoded → Nat
  | .command bytes => bytes.length
  | .busCycle _ _ => 0

/-- An instruction is encoded in as many channel bytes as its format has. -/
def Statement (i : Instr) : Prop := ∀ sync, channelBytes (encode sync i) = fixedBytes i

theorem reset : Statement .reset := fun _ => rfl
theorem halt : Statement .halt := fun _ => rfl
theorem cont : Statement .cont := fun _ => rfl
theorem stepOne : Statement .stepOne := fun _ => rfl
theorem write (addr : Addr) (data : Byte) : Statement (.write addr data) := fun _ => rfl
theorem read (addr : Addr) : Statement (.read addr) := fun _ => rfl
theorem load (addr : Addr) (size : U16) : Statement (.load addr size) := fun _ => rfl
theorem setBreakpoint (addr : Addr) : Statement (.setBreakpoint addr) := fun _ => rfl
theorem getRegisters : Statement .getRegisters := fun _ => rfl
theorem unknown (code : Byte) : Statement (.unknown code) := fun _ => rfl
theorem busBpHit (addr : Addr) (rnw : Bool) : Statement (.busBpHit addr rnw) := fun _ => rfl
theorem busRead (addr : Addr) : Statement (.busRead addr) := fun _ => rfl
theorem busWrite (addr : Addr) : Statement (.busWrite addr) := fun _ => rfl

end Sys2Proof.Laws.FixedLength
end

