-- ==== Sys2Proof/Safety.lean ====
section
/-! DEFINITION. What counts as a sound state, a power-on state and a kept-up bus: the terms in which the statements about the
machine are made. -/

namespace Sys2Proof.Machine

/-- Every state that R30 allows after power-on, with any legal parameters, any contents of MEM and any `DOUT`, whatever the
CPU and the host will do. `RUN = Running` is the spec's decision D7, the rest D8. -/
structure PowerOn (s : State) : Prop where
  legal : s.cfg.Legal
  memForm : s.mem.wf
  memSize : ∀ c ∈ s.mem, c.1 < s.cfg.memSize
  table : s.bps = []
  running : s.run = .running
  stepState : s.stepState = .awaitSyncRise
  released : s.doe = false
  clock : s.clk = false
  resetHigh : s.rstn = true
  rxEmpty : s.rxq = []
  txEmpty : s.txq = []
  atLoop : s.phase = .atLoop
  noEvents : s.trace = []

/-- The byte of a `Tx` event. -/
def Event.sentByte : Event → Option Byte
  | .tx b => some b
  | .drive _ | .release | .clkAssert | .clkDeassert | .resetLow | .resetHigh => none

/-- What the place of the thread of control says about the rest of the state: a command waits only for a byte it lacks, a
transmission only with bytes unsent, and inside a Step or a notification `RUN` is Halted (R100, R87). -/
def PhaseSound (s : State) : Prop :=
  match s.phase with
  | .atLoop => True
  | .receiving got => ∃ c n, decodeCommand got = .error (.argumentMissing c n)
  | .loading _ i left => 0 < left ∧ i + left < 65536
  | .draining _ i left => 0 < left ∧ i + left < 65536
  | .stepping => s.run = .halted
  | .responding unsent => unsent ≠ []
  | .notifying unsent _ _ _ => unsent ≠ [] ∧ s.run = .halted

/-- The invariant of R32, with what holds of the model's own fields. -/
structure Inv (s : State) : Prop where
  /-- The parameters are in the ranges of R4. -/
  legal : s.cfg.Legal
  /-- The memory is in canonical form. -/
  memForm : s.mem.wf
  /-- R32 (6): no cell outside the store. -/
  memSize : ∀ c ∈ s.mem, c.1 < s.cfg.memSize
  /-- R32 (1). -/
  table : bpCount s ≤ s.cfg.bpCapacity
  /-- R32 (3). -/
  released : s.doe = false
  /-- R32 (4). -/
  resetHigh : s.rstn = true
  /-- R32 (5). -/
  haltedClock : s.run = .halted → s.clk = false
  /-- R29: the transmit queue holds the bytes of the `Tx` events, in their order. -/
  sent : s.txq = s.trace.filterMap Event.sentByte
  /-- What the thread of control's place says. -/
  phase : PhaseSound s

/-- The states that steps reach from power-on. -/
inductive Reachable : State → Prop where
  | powerOn (s : State) (h : PowerOn s) : Reachable s
  | step (s t : State) (hs : Reachable s) (ht : Machine.step s = .next t) : Reachable t

/-- `k` steps of the machine. -/
def runSteps (k : Nat) (s : State) : Host.Outcome State Fault Refusal := Host.Core.run Sys2Proof.core k s

/-- The command whose fixed part is complete at this step, once the host has taken its turn, and the bytes that follow it:
at the top of the main loop, or inside a command that waited for it (R150, R153). -/
def commandTaken (s : State) : Option (Instr × List Byte) :=
  let p := pollHost s
  match p.phase with
  | .atLoop => (decodeCommand p.rxq).toOption
  | .receiving got => (decodeCommand (got ++ p.rxq)).toOption
  | .loading _ _ _ | .draining _ _ _ | .stepping | .responding _ | .notifying _ _ _ _ => none

/-- Whether this step invokes the responder: from the main loop while Running with no byte waiting, or from a Step (R150,
R102). -/
abbrev servesCycle (s : State) : Prop :=
  (pollHost s).phase = .stepping ∨
  ((pollHost s).phase = .atLoop ∧ (pollHost s).rxq = [] ∧ (pollHost s).run = .running)

/-- The bus cycle the CPU presents to this step, if the responder is invoked. -/
def cycleServed (s : State) : BusLines := (presentCycle (pollHost s)).lines

/-- The responder served one given answer of the CPU. -/
def serveCycle (c : BusLines) (s : State) : Host.Outcome State Fault Refusal := busCycle { s with cpuIn := c :: s.cpuIn }

/-- The responder invoked once for each answer of a list, in order. -/
def serveAll : List BusLines → State → Host.Outcome State Fault Refusal
  | [], s => .next s
  | c :: cs, s =>
    match serveCycle c s with
    | .next t => serveAll cs t
    | .fault r => .fault r
    | .refused r => .refused r

/-- The premise `BusKeptUp` of R200 over a finite stretch: every bus cycle the CPU performed was sampled, in order, once or
several times, and nothing else was sampled. -/
inductive BusKeptUp : (performed sampled : List BusLines) → Prop where
  | done : BusKeptUp [] []
  | once (c : BusLines) (cs ds : List BusLines) (h : BusKeptUp cs ds) : BusKeptUp (c :: cs) (c :: ds)
  | again (c : BusLines) (cs ds : List BusLines) (h : BusKeptUp (c :: cs) (c :: ds)) :
      BusKeptUp (c :: cs) (c :: c :: ds)

/-- Quiescent (R156): Halted at the top of the main loop with an empty receive queue. -/
def Quiescent (s : State) : Prop := s.phase = .atLoop ∧ s.run = .halted ∧ s.rxq = []

/-- Stuck (R153, R156): inside a command, waiting for a byte that the queue does not hold. -/
def AwaitsByte (s : State) : Prop :=
  s.rxq = [] ∧ match s.phase with
    | .receiving got => ∃ c n, decodeCommand got = .error (.argumentMissing c n)
    | .loading _ _ left => 0 < left
    | .draining _ _ left => 0 < left
    | .atLoop | .stepping | .responding _ | .notifying _ _ _ _ => False

/-- Whether a finite run ends here, `left` responder invocations being still to be counted (R156): the host's script holds no
byte more, the block is at the top of the main loop with an empty receive queue, and it is Halted or nothing is left to count
(log entry 18). -/
def atRunEnd (left : Nat) (s : State) : Bool :=
  s.hostIn.all (fun h => h.sends.isEmpty) && s.rxq.isEmpty && decide (s.phase = .atLoop) &&
    (decide (s.run = .halted) || left == 0)

/-- The finite run from a state, `left` responder invocations to be counted, those inside a Step among them: its end, or `none`
where it has none within `fuel` machine steps. A block that is stuck inside a command or hangs in a Step has no end (R156,
R105). -/
def finiteRun : (fuel left : Nat) → State → Option State
  | 0, left, s => if atRunEnd left s then some s else none
  | fuel + 1, left, s =>
    if atRunEnd left s then some s
    else match step s with
      | .next t => finiteRun fuel (if servesCycle s then left - 1 else left) t
      | .fault _ => none
      | .refused _ => none

end Sys2Proof.Machine
end

