-- ==== Sys2Proof/Certificates/Slice0/Obligations.lean ====
section
/-! DEFINITION. The statements for the provers. A statement on a command's response uses `respond` and `sendResponse`;
`ResponseIsSentAsTheChannelAccepts` says what those do for every room of the channel. -/

open Sys2Proof Sys2Proof.Machine

/-! ## Encodings -/

/-- Every well-formed operation decodes from its encoding (R55, R57, R60, R61, R73); on the channel also with any bytes behind
it, and a whole `L` command decodes to its address and size with its data bytes left in the queue (R56). -/
def Obligations.DecodeInvertsEncode : Prop :=
  (∀ (sync : Bool) (i : Instr), i.WellFormed = true → decode (encode sync i) = .ok (i, [])) ∧
  (∀ (sync : Bool) (i : Instr) (bs rest : List Byte), i.WellFormed = true → encode sync i = .command bs →
    decodeCommand (bs ++ rest) = .ok (i, rest)) ∧
  (∀ (addr : Addr) (data rest : List Byte), data.length < 65536 → ∃ size : U16, size.toNat = data.length ∧
    decodeCommand (encodeLoad addr data ++ rest) = .ok (.load addr size, data ++ rest))

/-- Whatever decodes is well formed, and the bytes taken are exactly its encoding: no two byte sequences stand for one command
and no bit is dropped (R55, R63). -/
def Obligations.DecodedCommandEncodesBack : Prop :=
  ∀ (bs rest : List Byte) (i : Instr), decodeCommand bs = .ok (i, rest) →
    i.WellFormed = true ∧ ∃ cmd : List Byte, (∀ sync, encode sync i = .command cmd) ∧ bs = cmd ++ rest

/-- The decoder waits exactly where an argument byte is missing; no byte sequence is refused for its value (R56, R63, R64). -/
def Obligations.DecoderWaitsForMissingArguments : Prop :=
  (∀ bs : List Byte, decodeCommand bs = .error .noCode ↔ bs = []) ∧
  (∀ (bs : List Byte) (c : Byte) (n : Nat), decodeCommand bs = .error (.argumentMissing c n) ↔
    ∃ args : List Byte, bs = c :: args ∧ args.length < argumentBytes c ∧ n = argumentBytes c - args.length)

/-- A few words written out from the formats of R55 and the codes of R57. -/
def Obligations.WrittenOutWordsDecode : Prop :=
  decodeCommand [0x57, 0x12, 0x34, 0x56] = .ok (.write 0x1234 0x56, []) ∧
  decodeCommand [0x4D, 0x00, 0xFF] = .ok (.read 0x00FF, []) ∧
  decodeCommand [0x4C, 0x01, 0x00, 0x00, 0x02, 0x57, 0x52] = .ok (.load 0x0100 2, [0x57, 0x52]) ∧
  decodeCommand [0x42, 0x00, 0x00] = .ok (.setBreakpoint 0, []) ∧
  decodeCommand [0x53, 0x53] = .ok (.stepOne, [0x53]) ∧
  decodeCommand [0x72] = .ok (.unknown 0x72, [])

/-- The 16-bit fields of `W`, `M`, `B` and `L` are `first * 256 + second` (R60). -/
def Obligations.FieldsAreBigEndian : Prop :=
  ∀ (f g h k d : Byte) (rest : List Byte), ∃ a n : BitVec 16,
    a.toNat = f.toNat * 256 + g.toNat ∧ n.toNat = h.toNat * 256 + k.toNat ∧
    decodeCommand (0x57 :: f :: g :: d :: rest) = .ok (.write a d, rest) ∧
    decodeCommand (0x4D :: f :: g :: rest) = .ok (.read a, rest) ∧
    decodeCommand (0x42 :: f :: g :: rest) = .ok (.setBreakpoint a, rest) ∧
    decodeCommand (0x4C :: f :: g :: h :: k :: rest) = .ok (.load a n, rest)

/-- R73: a sample with the comparator's answer selects one operation; SYNC selects nothing; the responder performs the
operation selected by its own comparison and its sampled read/write line. -/
def Obligations.SampleSelectsOperation : Prop :=
  (∀ b : BusSample, selectOperation true b = .busBpHit b.addr b.rnw) ∧
  (∀ b : BusSample, b.rnw = true → selectOperation false b = .busRead b.addr) ∧
  (∀ b : BusSample, b.rnw = false → selectOperation false b = .busWrite b.addr) ∧
  (∀ (hit sync : Bool) (b : BusSample), selectOperation hit { b with sync := sync } = selectOperation hit b) ∧
  (∀ (hit : Bool) (b : BusSample), (selectOperation hit b).WellFormed = true) ∧
  (∀ s : State, busCycle s =
    exec (selectOperation (bpContains (presentCycle s).lines.sample.addr (presentCycle s))
      (presentCycle s).lines.sample) (presentCycle s))

/-! ## The store, the table, the checksum -/

/-- R75: the read of a cell. -/
def Obligations.StoreReadAnswersByteOrSentinel : Prop :=
  (∀ (s : State) (a : Addr), a.toNat < s.cfg.memSize → memRead a s = (s.mem.read a.toNat, true)) ∧
  (∀ (s : State) (a : Addr), s.cfg.memSize ≤ a.toNat → memRead a s = (s.cfg.sentinel, false)) ∧
  (∀ (s : State) (a : Addr), s.cfg.memSize = 65536 → memRead a s = (s.mem.read a.toNat, true)) ∧
  Params.standard.sentinel = 0xFF

/-- R76: the write of a cell, with its frame: nothing but the one cell. The premise is the canonical form of the memory, which
every step keeps. -/
def Obligations.StoreWriteSetsOneCell : Prop :=
  ∀ (s : State) (a : Addr) (b : Byte), s.mem.wf →
    (a.toNat < s.cfg.memSize → ∃ m : Memory, memWrite a b s = ({ s with mem := m }, true) ∧ m.wf ∧
      m.read a.toNat = b ∧ ∀ k, k ≠ a.toNat → m.read k = s.mem.read k) ∧
    (s.cfg.memSize ≤ a.toNat → memWrite a b s = (s, false))

/-- The laws of the store over sequences of operations: what is written is read, twice is once, and writes to different
addresses commute (40_primitives.md section 1; 20_memory.md sections 1 and 3). -/
def Obligations.StoreSequenceLaws : Prop :=
  ∀ (s : State) (a a' : Addr) (b b' : Byte), s.mem.wf →
    (a.toNat < s.cfg.memSize → memRead a (memWrite a b s).1 = (b, true)) ∧
    (s.cfg.memSize ≤ a.toNat → memRead a (memWrite a b s).1 = (s.cfg.sentinel, false)) ∧
    (memWrite a b (memWrite a b s).1).1 = (memWrite a b s).1 ∧
    (a ≠ a' → memRead a' (memWrite a b s).1 = memRead a' s) ∧
    (a ≠ a' → (memWrite a b (memWrite a' b' s).1).1 = (memWrite a' b' (memWrite a b s).1).1)

/-- The canonical form is canonical: memories in form that read alike are equal. A fact of the model's representation. -/
def Obligations.CanonicalMemoriesAreExtensional : Prop :=
  ∀ m n : Memory, m.wf → n.wf → (∀ a, m.read a = n.read a) → m = n

/-- R79: the comparison with the table. -/
def Obligations.TableContainsComparesEntries : Prop :=
  ∀ (s : State) (a : Addr), bpContains a s = true ↔ ∃ i, i < bpCount s ∧ s.bps[i]? = some a

/-- R80: from an empty table exactly `BP_CAPACITY` adds succeed; the table contains what was inserted and nothing else; and a
contained address stays contained at every step. -/
def Obligations.TableAcceptsExactlyCapacity : Prop :=
  (∀ (s : State) (as : List Addr), s.bps = [] →
    let full := as.foldl (fun u a => (bpAdd a u).1) s
    full = { s with bps := as.take s.cfg.bpCapacity } ∧ bpCount full = min as.length s.cfg.bpCapacity ∧
    (∀ a, (bpAdd a full).2 = decide (as.length < s.cfg.bpCapacity)) ∧
    (∀ a, bpContains a full = true ↔ a ∈ as.take s.cfg.bpCapacity)) ∧
  (∀ (s t : State) (a : Addr), step s = .next t → bpContains a s = true → bpContains a t = true)

/-- The checksum is the XOR of all the bytes: of a sequence from its parts, whatever their order (40_primitives.md section 4;
0x00 for no byte is the spec's decision D23). -/
def Obligations.ChecksumIsXorOfBytes : Prop :=
  checksum [] = 0 ∧ (∀ (b : Byte) (bs : List Byte), checksum (b :: bs) = b ^^^ checksum bs) ∧
  (∀ as bs : List Byte, checksum (as ++ bs) = checksum as ^^^ checksum bs) ∧
  (∀ as bs : List Byte, as.Perm bs → checksum as = checksum bs)

/-! ## The responder -/

/-- R88: the bus read, with its selector and its frame: `DOUT`, `DOE` and the two events, nothing else. -/
def Obligations.BusReadDrivesThenReleases : Prop :=
  (∀ (s : State) (a : Addr),
    let b := if a.toNat < s.cfg.memSize then s.mem.read a.toNat else s.cfg.sentinel
    exec (.busRead a) s = .next { s with dout := b, doe := false, trace := s.trace ++ [.drive b, .release] }) ∧
  (∀ (hit : Bool) (b : BusSample) (a : Addr),
    selectOperation hit b = .busRead a ↔ hit = false ∧ b.rnw = true ∧ b.addr = a)

/-- The bus write, with its frame: the sampled byte at the sampled address when it is valid, nothing stored otherwise (the
spec's decision D22), and no byte driven (41_bus_responder.md section 2). -/
def Obligations.BusWriteStoresSampledByte : Prop :=
  ∀ (s : State) (a : Addr), s.mem.wf → ∃ m : Memory,
    exec (.busWrite a) s = .next { s with doe := false, mem := m, trace := s.trace ++ [.release] } ∧
    (a.toNat < s.cfg.memSize → m.wf ∧ m.read a.toNat = s.lines.data ∧ ∀ k, k ≠ a.toNat → m.read k = s.mem.read k) ∧
    (s.cfg.memSize ≤ a.toNat → m = s.mem)

/-- The breakpoint stop, with its frame, for every room of the channel (41_bus_responder.md section 2; the spec's decisions D4,
D5): Halted, the notification, the release, and a served write only with `BP_HIT_COMMITS_WRITE` on a write cycle; where the
channel has no room for the whole notification, the block waits inside it. `clk := false` is no action of the stop: the clock
line is held deasserted while Halted by the spec's decision D3, and that a change to Halted clears the latch is the model's
choice (log entry 10). -/
def Obligations.BusHitHaltsAndNotifies : Prop :=
  ∀ (s : State) (a : Addr) (rnw : Bool),
    let note := textBytes (.breakpointReached a)
    let told : Option Nat → State := fun room =>
      { s with run := .halted, clk := false, doe := false, txRoom := room, txq := s.txq ++ note,
               trace := s.trace ++ note.map Event.tx ++ [.release] }
    let finish : State → Host.Outcome State Fault Refusal := fun u =>
      if s.cfg.bpHitCommitsWrite = true ∧ rnw = false then exec (.busWrite a) u else .next u
    (s.txRoom = none → exec (.busBpHit a rnw) s = finish (told none)) ∧
    (∀ n, s.txRoom = some n → note.length ≤ n →
      exec (.busBpHit a rnw) s = finish (told (some (n - note.length)))) ∧
    (∀ n, s.txRoom = some n → n < note.length →
      exec (.busBpHit a rnw) s = .next { s with
        run := .halted, clk := false, txRoom := some 0, txq := s.txq ++ note.take n,
        trace := s.trace ++ (note.take n).map Event.tx,
        phase := .notifying (note.drop n) a rnw s.phase.inStep })

/-- A notification that the channel delayed ends as one that it did not delay: from the main loop at once, and inside a Step with
the controller's transition that follows the responder (41_bus_responder.md section 2; 42_step_controller.md sections 1 and 3, the
spec's decision D25; 00_scope.md section 6, `TxByte`). -/
def Obligations.DelayedNotificationEndsAlike : Prop :=
  (∀ (s w : State) (a : Addr) (rnw : Bool) (n : Nat), s.phase = .atLoop → s.txRoom = some n →
    exec (.busBpHit a rnw) s = .next w → w.phase ≠ .atLoop →
    advance { w with txRoom := none } = exec (.busBpHit a rnw) { s with txRoom := none }) ∧
  (∀ (s w u : State) (a : Addr) (rnw : Bool) (n : Nat), s.phase = .stepping → s.txRoom = some n →
    exec (.busBpHit a rnw) s = .next w → w.phase ≠ .stepping →
    exec (.busBpHit a rnw) { s with txRoom := none } = .next u →
    advance { w with txRoom := none } = .next (controllerTransition u))

/-- R85: one invocation samples once, compares, and performs one operation; it is made once by a main-loop iteration and once
for each pulse of a Step; it always ends; it does not read `RUN`. -/
def Obligations.ResponderInvocationOrder : Prop :=
  (∀ (s : State) (c : BusLines) (cs : List BusLines), s.cpuIn = c :: cs →
    let p := { s with lines := c, cpuIn := cs }
    (c.sample.addr ∈ s.bps → busCycle s = exec (.busBpHit c.sample.addr c.sample.rnw) p) ∧
    (c.sample.addr ∉ s.bps → c.sample.rnw = true → busCycle s = exec (.busRead c.sample.addr) p) ∧
    (c.sample.addr ∉ s.bps → c.sample.rnw = false → busCycle s = exec (.busWrite c.sample.addr) p)) ∧
  (∀ s : State, s.phase = .atLoop → (pollHost s).rxq = [] → s.run = .running → step s = busCycle (pollHost s)) ∧
  (∀ s : State, s.phase = .stepping →
    ∃ t, busCycle (clockPulse (pollHost s)) = .next t ∧ step s = .next (afterResponder t)) ∧
  (∀ s : State, ∃ t, busCycle s = .next t) ∧
  (∀ (s t : State) (r : RunState), busCycle s = .next t →
    ∃ u, busCycle { s with run := r } = .next u ∧ { u with run := t.run } = t)

/-- No byte is driven in a cycle whose sampled read/write line says that the CPU writes, nor in a cycle that hits; and from
released lines every invocation ends with released lines (the source's fourth property; 41_bus_responder.md section 2). -/
def Obligations.ResponderNeverDrivesAgainstTheCpu : Prop :=
  ∀ (s t : State), s.doe = false → busCycle s = .next t →
    t.doe = false ∧
    (((presentCycle s).lines.sample.rnw = false ∨ (presentCycle s).lines.sample.addr ∈ s.bps) →
      ∃ es : List Event, t.trace = s.trace ++ es ∧ ∀ b, Event.drive b ∉ es)

/-- SYNC changes nothing in how a cycle is answered (41_bus_responder.md section 3). -/
def Obligations.ResponderIgnoresSync : Prop :=
  ∀ (s t : State) (c : BusLines) (sync after : Bool), serveCycle c s = .next t →
    let c' := { c with sample := { c.sample with sync := sync }, syncAfter := after }
    serveCycle c' s = .next { t with lines := c' }

/-- Sampling one bus cycle more than once does to `MEM` what sampling it once does, under the premise `BusKeptUp`
(20_memory.md section 1; 70_reset_and_hazards.md section 2): with the responder alone; and in the main loop, where a run that
starts Running and whose host sends nothing ends after as many responder invocations as there are samples, the last of which may
hit (46_main_loop.md; how a finite run is counted is the model's choice, log entry 18). -/
def Obligations.RepeatedSamplingLeavesMemoryAlike : Prop :=
  ∀ (s t : State) (performed sampled : List BusLines), s.mem.wf → s.txRoom = none →
    BusKeptUp performed sampled → serveAll performed s = .next t →
    (∀ u, serveAll sampled s = .next u → u.mem = t.mem) ∧
    (∀ rest, s.phase = .atLoop → s.run = .running → s.rxq = [] → s.cpuIn = sampled ++ rest →
      (∀ h ∈ s.hostIn, h.sends = [] ∧ h.room = none) → sampled.length ≤ s.hostIn.length →
      (∀ c ∈ sampled.dropLast, c.sample.addr ∉ s.bps) →
      ∃ u, finiteRun sampled.length sampled.length s = some u ∧ runSteps sampled.length s = .next u ∧
        u.phase = .atLoop ∧ u.rxq = [] ∧ u.cpuIn = rest ∧ u.mem = t.mem)

/-! ## Responses -/

/-- What the end of a command does for every room of the channel (00_scope.md section 6, `TxByte`, `TxText`; 10_state.md
section 5): the bytes go out in order, and when all have gone control is at the main loop; where the channel has no room, the
block waits inside the transmission. Nothing else changes. -/
def Obligations.ResponseIsSentAsTheChannelAccepts : Prop :=
  ∀ (bs : List Byte) (s : State),
    (s.txRoom = none → sendResponse bs s =
      { s with txq := s.txq ++ bs, trace := s.trace ++ bs.map Event.tx, phase := .atLoop }) ∧
    (∀ n, s.txRoom = some n → bs.length ≤ n → sendResponse bs s =
      { s with txRoom := some (n - bs.length), txq := s.txq ++ bs, trace := s.trace ++ bs.map Event.tx,
               phase := .atLoop }) ∧
    (∀ n, s.txRoom = some n → n < bs.length → sendResponse bs s =
      { s with txRoom := some 0, txq := s.txq ++ bs.take n, trace := s.trace ++ (bs.take n).map Event.tx,
               phase := .responding (bs.drop n) }) ∧
    (∀ t, respond t s = sendResponse (textBytes t) s)

/-- A response that the channel delayed ends as one that it did not delay (00_scope.md section 6, `TxByte`). -/
def Obligations.DelayedResponseEndsAlike : Prop :=
  ∀ (bs : List Byte) (s : State), (sendResponse bs s).phase ≠ .atLoop →
    advance { sendResponse bs s with txRoom := none } = .next (sendResponse bs { s with txRoom := none })

/-- Every text is ASCII and ends with the same one or two bytes of `NEWLINE` (00_scope.md section 4, `TEXT`, `NEWLINE`). -/
def Obligations.TextsAreAsciiLines : Prop :=
  (newlineBytes.length = 1 ∨ newlineBytes.length = 2) ∧
  (∀ t : Text, (∃ body : List Byte, textBytes t = body ++ newlineBytes) ∧ ∀ b ∈ textBytes t, b.toNat < 128)

/-- R161: an error sends its text and returns to the main loop (or waits for the channel inside the text), changing nothing
else; and no state has a step that ends the machine. -/
def Obligations.NoFailureIsFatal : Prop :=
  (∀ (k : Text) (s : State), ∃ (sent rest : List Byte) (room : Option Nat), textBytes k = sent ++ rest ∧
    raiseError k s = { s with
      txq := s.txq ++ sent, trace := s.trace ++ sent.map Event.tx, txRoom := room,
      phase := if rest = [] then Phase.atLoop else Phase.responding rest }) ∧
  (∀ s : State, ∃ t, step s = .next t)

/-! ## Run control -/

/-- `R`: the reset pulse, Running, the status text; nothing else (43_run_control_commands.md; the order is the spec's decision
D13). -/
def Obligations.ResetCommandPulsesAndRuns : Prop :=
  (∀ s : State, exec .reset s = .next (respond .statusReset
    { s with run := .running, rstn := true, trace := s.trace ++ [.resetLow, .resetHigh] })) ∧
  (∀ (s : State) (rest : List Byte), s.phase = .atLoop → (pollHost s).rxq = 0x52 :: rest →
    step s = exec .reset { pollHost s with rxq := rest })

/-- `R` is no reset of the block, and nothing empties the table (10_state.md section 6). That the clock latch stays as it was and
the line then carries the run clock is read from 90_conflicts.md C10 and is the model's choice (log entry 10). -/
def Obligations.ResetCommandKeepsBlockState : Prop :=
  (∀ s : State, ∃ t, exec .reset s = .next t ∧ t.run = .running ∧ t.rstn = true ∧ t.mem = s.mem ∧ t.bps = s.bps ∧
    bpCount t = bpCount s ∧ t.stepState = s.stepState ∧ t.doe = s.doe ∧ t.dout = s.dout ∧ t.clk = s.clk ∧
    clockLine t = Config.runClock t.hostCount ∧
    ∃ sent : List Byte, t.trace = s.trace ++ [.resetLow, .resetHigh] ++ sent.map Event.tx) ∧
  (∀ s t : State, step s = .next t → ∃ more, t.bps = s.bps ++ more)

/-- R116: `H`, its frame, the clock line held deasserted, and no bus cycle served afterwards while no byte waits. -/
def Obligations.HaltCommandStopsService : Prop :=
  ∀ s : State,
    exec .halt s = .next (respond .statusHalt { s with run := .halted, clk := false }) ∧
    (∀ t, exec .halt s = .next t → t.run = .halted ∧ clockLine t = false) ∧
    (∀ rest, s.phase = .atLoop → (pollHost s).rxq = 0x48 :: rest → step s = exec .halt { pollHost s with rxq := rest }) ∧
    (s.phase = .atLoop → s.run = .halted → (pollHost s).rxq = [] → step s = .next (pollHost s))

/-- R117: `C`, its frame (the table among it), and that service resumes with the next iteration that finds no byte. -/
def Obligations.ContinueCommandResumesService : Prop :=
  ∀ s : State,
    exec .cont s = .next (respond .statusContinue { s with run := .running }) ∧
    (∀ rest, s.phase = .atLoop → (pollHost s).rxq = 0x43 :: rest → step s = exec .cont { pollHost s with rxq := rest }) ∧
    (s.phase = .atLoop → s.run = .running → (pollHost s).rxq = [] → step s = busCycle (pollHost s))

/-- `S` as it is taken: Halted, `AwaitSyncRise`, and the thread of control at the top of the Step loop; nothing else yet. The
rest of the Step is `StepRunsToItsEnd` (42_step_controller.md section 1; the initial state is the spec's decision D10; that one
iteration of the loop is one step of the machine is the model's choice, log entry 6; the cleared clock latch is the spec's
decision D3 with log entry 10). -/
def Obligations.StepCommandEntersTheLoop : Prop :=
  (∀ s : State, exec .stepOne s =
    .next { s with run := .halted, clk := false, stepState := .awaitSyncRise, phase := .stepping }) ∧
  (∀ (s : State) (rest : List Byte), s.phase = .atLoop → (pollHost s).rxq = 0x53 :: rest →
    step s = exec .stepOne { pollHost s with rxq := rest })

/-- R119: none of the four commands reads `RUN`, and none is refused. -/
def Obligations.RunControlIgnoresRunState : Prop :=
  ∀ (s : State) (r : RunState), ∀ i ∈ [Instr.reset, Instr.halt, Instr.cont, Instr.stepOne],
    exec i { s with run := r } = exec i s ∧ ∃ t, exec i s = .next t

/-! ## The step controller -/

/-- One iteration of a Step: a pulse, one responder invocation, one SYNC sample with the four cases of the table
(42_step_controller.md section 1; the separate SYNC sample is the cautious reading of decision D9; that an iteration is one step
of the machine is log entry 6). -/
def Obligations.StepIterationOrder : Prop :=
  (∀ s : State, s.phase = .stepping → ∃ t,
    busCycle { s with clk := false, trace := s.trace ++ [.clkAssert, .clkDeassert] } = .next t ∧
    (t.phase = .stepping → advance s = .next (controllerTransition t)) ∧
    (t.phase ≠ .stepping → advance s = .next t)) ∧
  (∀ s : State,
    (s.stepState = .awaitSyncRise → s.lines.syncAfter = false → controllerTransition s = s) ∧
    (s.stepState = .awaitSyncRise → s.lines.syncAfter = true →
      controllerTransition s = { s with stepState := .awaitSyncFall }) ∧
    (s.stepState = .awaitSyncFall → s.lines.syncAfter = true → controllerTransition s = s) ∧
    (s.stepState = .awaitSyncFall → s.lines.syncAfter = false →
      controllerTransition s = respond .statusStep s))

/-- A Step whose SYNC samples are zeros, then ones, then a zero ends after exactly that many iterations: as many clock pulses and
responder invocations, every notification before the status text, `RUN` Halted, the memory as the served cycles leave it, the
host's bytes waiting, and no further answer of the CPU used (42_step_controller.md sections 1 and 4). The channel accepts every
byte. That a hit does not end the Step is the spec's decision D25, the separate SYNC sample D9, and that one iteration is one step
of the machine the model's choice (log entry 6). -/
def Obligations.StepRunsToItsEnd : Prop :=
  ∀ (s : State) (zeros ones : List BusLines) (last : BusLines) (rest : List BusLines) (turns later : List HostTurn),
    let cycles := zeros ++ ones ++ [last]
    s.phase = .stepping → s.run = .halted → s.stepState = .awaitSyncRise →
    (∀ c ∈ zeros, c.syncAfter = false) → ones ≠ [] → (∀ c ∈ ones, c.syncAfter = true) → last.syncAfter = false →
    s.cpuIn = cycles ++ rest → s.hostIn = turns ++ later → turns.length = cycles.length →
    (∀ h ∈ turns, h.room = none) →
    ∃ t u, runSteps cycles.length s = .next t ∧ t.phase = .atLoop ∧ t.run = .halted ∧ t.clk = false ∧ t.doe = false ∧
      t.stepState = .awaitSyncFall ∧ t.cpuIn = rest ∧ t.hostIn = later ∧
      t.rxq = s.rxq ++ (turns.map HostTurn.sends).flatten ∧ t.bps = s.bps ∧ t.cfg = s.cfg ∧ t.rstn = s.rstn ∧
      t.trace.count .clkAssert = s.trace.count .clkAssert + cycles.length ∧
      t.trace.count .clkDeassert = s.trace.count .clkDeassert + cycles.length ∧
      t.txq = s.txq ++ (cycles.map fun c =>
        if bpContains c.sample.addr s then textBytes (.breakpointReached c.sample.addr) else []).flatten ++
        textBytes .statusStep ∧
      serveAll cycles { s with txRoom := none } = .next u ∧ t.mem = u.mem

/-- A Step whose SYNC samples have shown no one followed by a zero is still in its loop, whatever their number: it has pulsed
and served once per sample, has sent no status text and has taken no command byte, and no finite run has ended
(42_step_controller.md section 2; 46_main_loop.md; that it has no bound is the spec's decision D15, that a hit does not end it D25,
the separate SYNC sample D9, that one iteration is one step of the machine log entry 6, how a finite run is counted log entry
18). -/
def Obligations.StepWithoutSyncFallNeverEnds : Prop :=
  ∀ (s : State) (cycles rest : List BusLines) (turns later : List HostTurn),
    s.phase = .stepping → s.run = .halted → s.stepState = .awaitSyncRise →
    cycles.Pairwise (fun c d => c.syncAfter = true → d.syncAfter = true) →
    s.cpuIn = cycles ++ rest → s.hostIn = turns ++ later → turns.length = cycles.length →
    (∀ h ∈ turns, h.room = none) →
    (∀ left, finiteRun cycles.length left s = none) ∧ ∃ t, runSteps cycles.length s = .next t ∧ t.phase = .stepping ∧ t.run = .halted ∧
      t.rxq = s.rxq ++ (turns.map HostTurn.sends).flatten ∧
      t.trace.count .clkAssert = s.trace.count .clkAssert + cycles.length ∧
      t.txq = s.txq ++ (cycles.map fun c =>
        if bpContains c.sample.addr s then textBytes (.breakpointReached c.sample.addr) else []).flatten

/-- R109: inside a Step no command byte is taken and no command runs, the host's bytes wait in the queue, and the thread leaves
only to the end of `S`; a Step can be issued in either run state. -/
def Obligations.StepServesNothingElse : Prop :=
  (∀ s t : State, s.phase.inStep = true → step s = .next t →
    commandTaken s = none ∧ t.rxq = (pollHost s).rxq ∧ (∃ bs, (pollHost s).rxq = s.rxq ++ bs) ∧
    (t.phase.inStep = true ∨ ∃ u, t = respond .statusStep u)) ∧
  (∀ s : State, ∃ t, exec .stepOne s = .next t ∧ t.run = .halted ∧ t.phase = .stepping)

/-! ## Memory commands -/

/-- R125: `W`, with its frame, its bytes, and what the CPU reads after it. -/
def Obligations.WriteCommandStoresAndAnswers : Prop :=
  ∀ (s : State) (a : Addr) (d : Byte), s.mem.wf →
    (a.toNat < s.cfg.memSize → ∃ m : Memory,
      exec (.write a d) s = .next (respond (.statusWrite a) { s with mem := m }) ∧ m.wf ∧
      m.read a.toNat = d ∧ ∀ k, k ≠ a.toNat → m.read k = s.mem.read k) ∧
    (s.cfg.memSize ≤ a.toNat → exec (.write a d) s = .next (raiseError (.invalidAddress a) s)) ∧
    (∀ (s' : State) (rest : List Byte), s'.phase = .atLoop →
      (pollHost s').rxq = [0x57, u16High a, u16Low a, d] ++ rest →
      step s' = exec (.write a d) { pollHost s' with rxq := rest }) ∧
    (∀ (t : State) (c : BusLines), a.toNat < s.cfg.memSize → exec (.write a d) s = .next t → a ∉ s.bps →
      c.sample.addr = a → c.sample.rnw = true →
      ∃ u, serveCycle c t = .next u ∧ u.trace = t.trace ++ [.drive d, .release])

/-- R126: `M`, with its frame: one raw byte, or the error text and no byte of the store. -/
def Obligations.ReadCommandAnswersOneByte : Prop :=
  ∀ (s : State) (a : Addr),
    (a.toNat < s.cfg.memSize → exec (.read a) s = .next (sendResponse [s.mem.read a.toNat] s)) ∧
    (s.cfg.memSize ≤ a.toNat → exec (.read a) s = .next (raiseError (.invalidAddress a) s)) ∧
    (∀ (s' : State) (rest : List Byte), s'.phase = .atLoop →
      (pollHost s').rxq = [0x4D, u16High a, u16Low a] ++ rest →
      step s' = exec (.read a) { pollHost s' with rxq := rest })

/-- `L` for every size, with its frame: all bytes written and the status text; or the bytes before the first invalid address
written, the failing byte consumed, the failure text, and the later bytes left or drained as `LOAD_ABORT_DRAINS` says (the
spec's decisions D11, D12); or, while bytes are missing, what has arrived written and the block waiting, inside the load or,
where the address has failed and the later bytes are to be drained, inside the drain (44_memory_commands.md). -/
def Obligations.LoadCommandWritesInOrder : Prop :=
  ∀ (s : State) (a : Addr) (size : U16) (data rest : List Byte), s.mem.wf →
    let written : Nat → Memory → Prop := fun n m => m.wf ∧
      (∀ i b, i < n → data[i]? = some b → m.read (loadAddress a i).toNat = b) ∧
      (∀ k, (∀ i, i < n → (loadAddress a i).toNat ≠ k) → m.read k = s.mem.read k)
    (s.rxq = data ++ rest → data.length = size.toNat →
      (∀ i, i < size.toNat → (loadAddress a i).toNat < s.cfg.memSize) →
      ∃ m, written size.toNat m ∧
        exec (.load a size) s = .next (respond .statusLoad { s with rxq := rest, mem := m })) ∧
    (∀ i, i < size.toNat → (∀ j, j < i → (loadAddress a j).toNat < s.cfg.memSize) →
      s.cfg.memSize ≤ (loadAddress a i).toNat →
      (s.cfg.loadAbortDrains = false → s.rxq = data ++ rest → data.length = i + 1 →
        ∃ m, written i m ∧ exec (.load a size) s =
          .next (raiseError (.partialLoadFailure a i) { s with rxq := rest, mem := m })) ∧
      (s.cfg.loadAbortDrains = true → s.rxq = data ++ rest → data.length = size.toNat →
        ∃ m, written i m ∧ exec (.load a size) s =
          .next (raiseError (.partialLoadFailure a i) { s with rxq := rest, mem := m })) ∧
      (s.cfg.loadAbortDrains = true → s.rxq = data → i < data.length → data.length < size.toNat →
        ∃ m, written i m ∧ exec (.load a size) s =
          .next { s with rxq := [], mem := m, phase := .draining a i (size.toNat - data.length) })) ∧
    (s.rxq = data → data.length < size.toNat →
      (∀ i, i < data.length → (loadAddress a i).toNat < s.cfg.memSize) →
      ∃ m, written data.length m ∧ exec (.load a size) s =
        .next { s with rxq := [], mem := m, phase := .loading a data.length (size.toNat - data.length) })

/-- R128: the corner cases of `L` on a channel that accepts every byte, with the parameters in their ranges and the drain
parameter at its default: size 0; a first address outside the store; a load that fits; one that runs off the end; a store of
65536 bytes; a missing byte; the five bytes of the fixed part. -/
def Obligations.LoadCornerCases : Prop :=
  ∀ (s : State) (a : Addr) (size : U16) (data rest : List Byte), s.mem.wf → s.cfg.Legal →
    s.cfg.loadAbortDrains = false → s.txRoom = none → s.rxq = data ++ rest →
    (size.toNat = 0 → data = [] → ∃ t, exec (.load a size) s = .next t ∧ t.mem = s.mem ∧ t.rxq = rest ∧
      t.txq = s.txq ++ textBytes .statusLoad) ∧
    (s.cfg.memSize ≤ a.toNat → 1 ≤ size.toNat → data.length = 1 →
      ∃ t, exec (.load a size) s = .next t ∧ t.mem = s.mem ∧ t.rxq = rest ∧
        t.txq = s.txq ++ textBytes (.partialLoadFailure a 0)) ∧
    (a.toNat < s.cfg.memSize → a.toNat + size.toNat ≤ s.cfg.memSize → data.length = size.toNat →
      ∃ t, exec (.load a size) s = .next t ∧ t.rxq = rest ∧ t.txq = s.txq ++ textBytes .statusLoad ∧
        (∀ i b, data[i]? = some b → t.mem.read (a.toNat + i) = b) ∧
        (∀ k, k < a.toNat ∨ a.toNat + size.toNat ≤ k → t.mem.read k = s.mem.read k)) ∧
    (a.toNat < s.cfg.memSize → s.cfg.memSize < a.toNat + size.toNat → s.cfg.memSize < 65536 →
      data.length = s.cfg.memSize - a.toNat + 1 →
      ∃ t, exec (.load a size) s = .next t ∧ t.rxq = rest ∧
        t.txq = s.txq ++ textBytes (.partialLoadFailure a (s.cfg.memSize - a.toNat)) ∧
        (∀ i b, i < s.cfg.memSize - a.toNat → data[i]? = some b → t.mem.read (a.toNat + i) = b) ∧
        (∀ k, k < a.toNat ∨ s.cfg.memSize ≤ k → t.mem.read k = s.mem.read k)) ∧
    (s.cfg.memSize = 65536 → data.length = size.toNat →
      ∃ t, exec (.load a size) s = .next t ∧ t.rxq = rest ∧ t.txq = s.txq ++ textBytes .statusLoad ∧
        (∀ i b, data[i]? = some b → t.mem.read ((a.toNat + i) % 65536) = b)) ∧
    (rest = [] → data.length < size.toNat → a.toNat + data.length ≤ s.cfg.memSize →
      ∃ t, exec (.load a size) s = .next t ∧ t.rxq = [] ∧ t.txq = s.txq ∧
        t.phase = .loading a data.length (size.toNat - data.length) ∧
        ((pollHost t).rxq = [] → step t = .next (pollHost t))) ∧
    (∀ (s' : State) (later : List Byte), s'.phase = .atLoop →
      (pollHost s').rxq = [0x4C, u16High a, u16Low a, u16High size, u16Low size] ++ later →
      step s' = exec (.load a size) { pollHost s' with rxq := later })

/-- An `L` that waited for its bytes ends as one that found them all: however the bytes arrive (46_main_loop.md; the spec's
decision D17). -/
def Obligations.LoadContinuesWhereItWaited : Prop :=
  (∀ (s u : State) (a a' : Addr) (left i l j : Nat) (later : List Byte), loadBytes a left i s = u →
    s.phase = .atLoop → u.phase = .loading a' j l →
    advance { u with rxq := later } = .next (loadBytes a left i { s with rxq := s.rxq ++ later })) ∧
  (∀ (s u : State) (a a' : Addr) (left i l j : Nat) (later : List Byte), drainLoad a i left s = u →
    s.phase = .atLoop → u.phase = .draining a' j l →
    advance { u with rxq := later } = .next (drainLoad a i left { s with rxq := s.rxq ++ later }))

/-- A whole `L` command in the receive queue, taken by one step: the bytes are in the store in order, the rest of the queue
waits, and the status text is sent (the source's fourth end-to-end scenario; 95_test_vectors.md E10). -/
def Obligations.QueuedLoadFillsTheStore : Prop :=
  ∀ (s : State) (a : Addr) (data rest : List Byte), s.mem.wf → data.length < 65536 → s.phase = .atLoop →
    (pollHost s).rxq = encodeLoad a data ++ rest → (pollHost s).txRoom = none →
    a.toNat + data.length ≤ s.cfg.memSize → s.cfg.memSize ≤ 65536 →
    ∃ t, step s = .next t ∧ t.rxq = rest ∧ t.phase = .atLoop ∧ t.run = s.run ∧ t.bps = s.bps ∧ t.cfg = s.cfg ∧
      t.txq = s.txq ++ textBytes .statusLoad ∧
      (∀ i b, data[i]? = some b → exec (.read (loadAddress a i)) t = .next (sendResponse [b] t)) ∧
      (∀ k, k < a.toNat ∨ a.toNat + data.length ≤ k → t.mem.read k = s.mem.read k)

/-- What the host writes the bus reads, and what the bus writes the host reads (20_memory.md section 3). -/
def Obligations.HostAndBusSeeOneStore : Prop :=
  ∀ (s t : State) (a : Addr), s.mem.wf → a.toNat < s.cfg.memSize →
    (∀ (d : Byte) (c : BusLines), exec (.write a d) s = .next t → a ∉ s.bps → c.sample.addr = a → c.sample.rnw = true →
      ∃ u, serveCycle c t = .next u ∧ u.trace = t.trace ++ [.drive d, .release]) ∧
    (exec (.busWrite a) s = .next t → exec (.read a) t = .next (sendResponse [s.lines.data] t))

/-! ## Breakpoint, register and unknown commands -/

/-- `B`, with its frame (45_breakpoint_and_misc_commands.md; that a duplicate takes a fresh entry is the spec's decision
D16). -/
def Obligations.SetBreakpointAppends : Prop :=
  ∀ (s : State) (a : Addr),
    (bpCount s < s.cfg.bpCapacity →
      exec (.setBreakpoint a) s = .next (respond (.statusBreakpoint a) { s with bps := s.bps ++ [a] })) ∧
    (bpCount s = s.cfg.bpCapacity →
      exec (.setBreakpoint a) s = .next (raiseError (.breakpointTableFull a) s)) ∧
    (∀ rest, s.phase = .atLoop → (pollHost s).rxq = [0x42, u16High a, u16Low a] ++ rest →
      step s = exec (.setBreakpoint a) { pollHost s with rxq := rest })

/-- R142: `G` always answers the unsupported-operation text, takes one byte and changes nothing else. -/
def Obligations.GetRegistersIsUnsupported : Prop :=
  (∀ s : State, exec .getRegisters s = .next (raiseError .unsupportedOperation s)) ∧
  (∀ (s : State) (rest : List Byte), s.phase = .atLoop → (pollHost s).rxq = 0x47 :: rest →
    step s = exec .getRegisters { pollHost s with rxq := rest })

/-- R143: every other code byte answers the unknown-command text and takes one byte; the next byte is a code byte. -/
def Obligations.UnknownCodeIsReported : Prop :=
  (∀ (s : State) (c : Byte), exec (.unknown c) s = .next (raiseError (.unknownCommand c) s)) ∧
  (∀ (s : State) (c : Byte) (rest : List Byte), c ∉ commandCodes → s.phase = .atLoop → (pollHost s).rxq = c :: rest →
    step s = exec (.unknown c) { pollHost s with rxq := rest })

/-! ## The main loop -/

/-- A step runs the decoded instruction: a command whose fixed part is complete at the head of the queue, or after the bytes
already taken; or the operation the bus sample selects (46_main_loop.md). -/
def Obligations.StepRunsDecodedInstruction : Prop :=
  (∀ (s : State) (i : Instr) (rest : List Byte), s.phase = .atLoop → decodeCommand (pollHost s).rxq = .ok (i, rest) →
    step s = exec i { pollHost s with rxq := rest }) ∧
  (∀ (s : State) (got : List Byte) (i : Instr) (rest : List Byte), s.phase = .receiving got →
    decodeCommand (got ++ (pollHost s).rxq) = .ok (i, rest) →
    step s = exec i { pollHost s with rxq := rest, phase := .atLoop }) ∧
  (∀ (s : State), s.phase = .atLoop → (pollHost s).rxq = [] → s.run = .running →
    let p := presentCycle (pollHost s)
    step s = exec (selectOperation (bpContains p.lines.sample.addr p) p.lines.sample) p)

/-- While Halted with an empty queue the block does nothing, and while a byte it needs is missing it waits without limit: only
the host's turn passes, which touches no element of the block. Over any number of turns that send nothing the state stays as it
is; the quiescent one is the end of a finite run, the stuck one is not (46_main_loop.md; how a finite run is counted is the
model's choice, log entry 18). -/
def Obligations.IdleAndWaitingChangeNothing : Prop :=
  (∀ s : State, (Quiescent (pollHost s) ∨ AwaitsByte (pollHost s)) →
    step s = .next (pollHost s) ∧
    pollHost s = { s with
      rxq := (pollHost s).rxq, txRoom := (pollHost s).txRoom, hostIn := (pollHost s).hostIn,
      hostCount := (pollHost s).hostCount }) ∧
  (∀ (s : State) (turns later : List HostTurn), (Quiescent s ∨ AwaitsByte s) → s.hostIn = turns ++ later →
    (∀ h ∈ turns, h.sends = []) →
    ∃ room, runSteps turns.length s = .next { s with hostIn := later, txRoom := room }) ∧
  (∀ (s : State) (fuel left : Nat), (∀ h ∈ s.hostIn, h.sends = []) →
    (Quiescent s → finiteRun fuel left s = some s) ∧
    (AwaitsByte s → fuel ≤ s.hostIn.length → finiteRun fuel left s = none))

/-- A command with an argument byte missing is taken as far as it has arrived, and runs when the rest has arrived, as if it had
arrived at once (46_main_loop.md; the spec's decision D17). -/
def Obligations.IncompleteCommandIsTaken : Prop :=
  (∀ (s : State) (c : Byte) (n : Nat), s.phase = .atLoop →
    decodeCommand (pollHost s).rxq = .error (.argumentMissing c n) →
    step s = .next { pollHost s with rxq := [], phase := .receiving (pollHost s).rxq }) ∧
  (∀ (s : State) (got : List Byte) (c : Byte) (n : Nat), s.phase = .receiving got →
    decodeCommand (got ++ (pollHost s).rxq) = .error (.argumentMissing c n) →
    step s = .next { pollHost s with rxq := [], phase := .receiving (got ++ (pollHost s).rxq) }) ∧
  (∀ (s : State) (got later : List Byte) (i : Instr) (rest : List Byte),
    decodeCommand (got ++ later) = .ok (i, rest) →
    advance { s with phase := .receiving got, rxq := later } = advance { s with phase := .atLoop, rxq := got ++ later })

/-- Inside a command or a notification the block serves no bus cycle and takes no other command: what a step adds to the trace is
`Tx` events (and, at the end of a notification, releases), and `RUN`, the table and `STEP` stay (46_main_loop.md; that a command
may wait is the spec's decision D17). -/
def Obligations.CommandsAreUninterrupted : Prop :=
  ∀ s t : State, s.phase ≠ .atLoop → (∀ got, s.phase ≠ .receiving got) → s.phase.inStep = false → step s = .next t →
    ¬ servesCycle s ∧ commandTaken s = none ∧ t.run = s.run ∧ t.bps = s.bps ∧ t.stepState = s.stepState ∧
    ∃ es : List Event, t.trace = s.trace ++ es ∧ ∀ e ∈ es, e = .release ∨ ∃ b, e = .tx b

/-- The state after power-on that the model calls reset has the values that 10_state.md section 6 lists (`RUN` by the spec's
decision D7, the rest by D8) and the default parameters; it is one of the power-on states. The contents of MEM and `DOUT` are
the model's choice (log entries 1, 2) and are not stated here. -/
def Obligations.ResetStateValues : Prop :=
  PowerOn State.reset ∧ State.reset.run = .running ∧ bpCount State.reset = 0 ∧
  State.reset.stepState = .awaitSyncRise ∧ State.reset.doe = false ∧ State.reset.clk = false ∧
  State.reset.rstn = true ∧ State.reset.rxq = [] ∧ State.reset.txq = [] ∧
  State.reset.cfg = { memSize := 4096, bpCapacity := 10, sentinel := 0xFF, bpHitCommitsWrite := false,
                      loadAbortDrains := false }

/-- The invariant holds in the reset state. -/
def Obligations.InvariantHoldsAtReset : Prop := Inv State.reset

/-- The invariant holds in every power-on state: any legal parameters, any contents of MEM, any `DOUT`. -/
def Obligations.InvariantHoldsAtPowerOn : Prop := ∀ s : State, PowerOn s → Inv s

/-- Every step keeps the invariant: the table within its capacity, the lines released, the reset line high, the clock line
deasserted while Halted, the memory in form and within the store, the transmit queue equal to the `Tx` events, and the thread of
control's place sound (10_state.md section 7). -/
def Obligations.EveryStepKeepsInvariant : Prop := ∀ s t : State, Inv s → step s = .next t → Inv t

/-- The invariant holds in every reachable state, from any power-on state, whatever the CPU and the host do (10_state.md section
7). -/
def Obligations.ReachableStatesKeepInvariant : Prop := ∀ s : State, Reachable s → Inv s

/-- What only grows: the table, the transmit queue and the trace; and the parameters, which never change (10_state.md sections 3,
5, 7; 70_reset_and_hazards.md section 1). -/
def Obligations.HistoryOnlyGrows : Prop :=
  ∀ s t : State, step s = .next t →
    t.cfg = s.cfg ∧ (∃ more, t.bps = s.bps ++ more) ∧ (∃ more, t.txq = s.txq ++ more) ∧
    ∃ more, t.trace = s.trace ++ more

/-- Who writes what (10_state.md sections 1 and 3): the table changes only by a `B`, `RUN` only by `R`, `H`, `C`, `S` or a hit,
`STEP` only by `S` and its loop, `DOUT` only by a served read, the reset line only by `R`. The premise on `RSTN` is the
invariant's. -/
def Obligations.ElementsChangeOnlyByTheirWriters : Prop :=
  ∀ s t : State, step s = .next t →
    (t.bps ≠ s.bps → ∃ a rest, commandTaken s = some (.setBreakpoint a, rest) ∧ t.bps = s.bps ++ [a]) ∧
    (t.run ≠ s.run →
      (∃ i rest, commandTaken s = some (i, rest) ∧ i ∈ [Instr.reset, Instr.halt, Instr.cont, Instr.stepOne]) ∨
      (servesCycle s ∧ (cycleServed s).sample.addr ∈ s.bps ∧ t.run = .halted)) ∧
    (t.stepState ≠ s.stepState → s.phase.inStep = true ∨ ∃ rest, commandTaken s = some (.stepOne, rest)) ∧
    (t.dout ≠ s.dout →
      servesCycle s ∧ (cycleServed s).sample.rnw = true ∧ (cycleServed s).sample.addr ∉ s.bps ∧
      t.dout = (memRead (cycleServed s).sample.addr s).1) ∧
    (s.rstn = true → t.rstn = true) ∧
    (t.rstn ≠ s.rstn → ∃ rest, commandTaken s = some (.reset, rest))

/-- A byte of MEM changes only by a write transaction on its address, to the byte written: a served bus write, a `W`, a byte of an
`L`, or, with `BP_HIT_COMMITS_WRITE`, the write of a hit cycle (the spec's decision D4, log entry 9); and never outside the store
(10_state.md sections 1 and 6; 20_memory.md section 1). -/
def Obligations.MemoryChangesOnlyByWriteTransactions : Prop :=
  ∀ (s t : State) (k : Nat), s.mem.wf → step s = .next t → t.mem.read k ≠ s.mem.read k →
    k < s.cfg.memSize ∧
    ((servesCycle s ∧ (cycleServed s).sample.addr.toNat = k ∧ (cycleServed s).sample.rnw = false ∧
        t.mem.read k = (cycleServed s).data ∧
        ((cycleServed s).sample.addr ∈ s.bps → s.cfg.bpHitCommitsWrite = true)) ∨
     (∃ a d rest, commandTaken s = some (.write a d, rest) ∧ a.toNat = k ∧ t.mem.read k = d) ∨
     (∃ a size rest i, commandTaken s = some (.load a size, rest) ∧ i < size.toNat ∧ (loadAddress a i).toNat = k ∧
        rest[i]? = some (t.mem.read k)) ∨
     (∃ a i left j, s.phase = .loading a i left ∧ j < left ∧ (loadAddress a (i + j)).toNat = k ∧
        (pollHost s).rxq[j]? = some (t.mem.read k)) ∨
     (∃ unsent a inStep, s.phase = .notifying unsent a false inStep ∧ s.cfg.bpHitCommitsWrite = true ∧
        a.toNat = k ∧ t.mem.read k = s.lines.data))

/-- Halted is left only by `C` or `R`; both leave it from every state (60_exceptions.md section 5; 10_state.md section 3). -/
def Obligations.HaltedIsLeftOnlyByContinueOrReset : Prop :=
  (∀ s t : State, s.run = .halted → step s = .next t → t.run = .running →
    ∃ i rest, commandTaken s = some (i, rest) ∧ (i = .cont ∨ i = .reset)) ∧
  (∀ s : State, ∃ t u, exec .cont s = .next t ∧ t.run = .running ∧ exec .reset s = .next u ∧ u.run = .running)

/-- A breakpoint stays armed: a hit leaves the table as it was, so the same address presented again is a hit again, whatever was
done between that kept the table's entries (60_exceptions.md section 5). -/
def Obligations.HitDoesNotDisarm : Prop :=
  ∀ (s t u : State) (c d : BusLines), c.sample.addr ∈ s.bps → serveCycle c s = .next t →
    exec .cont t = .next u → d.sample.addr = c.sample.addr →
    t.run = .halted ∧ t.bps = s.bps ∧ u.run = .running ∧
    serveCycle d u = exec (.busBpHit c.sample.addr d.sample.rnw) { u with lines := d }

/-- A whole host command or bus operation of fixed length takes the bytes of its format from the channel (30_encoding.md
sections 1 and 3). -/
def Obligations.FixedLengthsOfAllFormats : Prop := ∀ i : Instr, Laws.FixedLength.Statement i
end

