-- ==== Sys2Proof/Laws/Memory.lean ====
section
/-! SUPPORT. Laws of the memory: every operation keeps the canonical form, what a read finds after a write, and which cells
a write can list. -/

namespace Sys2Proof.Machine

theorem wf_nil : Memory.wf [] := ⟨List.Pairwise.nil, by simp⟩

theorem wf_tail {c : Host.Cell} {m : Memory} (h : Memory.wf (c :: m)) : Memory.wf m :=
  ⟨(List.pairwise_cons.mp h.1).2, fun d hd => h.2 d (List.mem_cons_of_mem _ hd)⟩

theorem wf_cons {k : Nat} {v : Byte} {m : Memory} (h : m.wf) (hk : ∀ c ∈ m, k < c.1) (hv : v ≠ Memory.unlisted) :
    Memory.wf ((k, v) :: m) :=
  ⟨List.pairwise_cons.mpr ⟨hk, h.1⟩, by
    intro c hc
    rcases List.mem_cons.mp hc with rfl | hc
    · exact hv
    · exact h.2 c hc⟩

theorem wf_head {k : Nat} {v : Byte} {m : Memory} (h : Memory.wf ((k, v) :: m)) : v ≠ Memory.unlisted :=
  h.2 _ List.mem_cons_self

theorem wf_lt {k : Nat} {v : Byte} {m : Memory} (h : Memory.wf ((k, v) :: m)) : ∀ c ∈ m, k < c.1 :=
  (List.pairwise_cons.mp h.1).1

/-- An address below every listed one reads as unlisted. -/
theorem read_below {m : Memory} {a : Nat} (h : ∀ c ∈ m, a < c.1) : m.read a = Memory.unlisted := by
  induction m with
  | nil => rfl
  | cons c m ih =>
    have hc := h c List.mem_cons_self
    rw [Memory.read, if_neg (by omega)]
    exact ih fun d hd => h d (List.mem_cons_of_mem _ hd)

/-- Every entry after a write is the written cell or was there before. -/
theorem mem_write {m : Memory} {a : Nat} {v : Byte} {c : Host.Cell} (h : c ∈ m.write a v) : c = (a, v) ∨ c ∈ m := by
  induction m with
  | nil =>
    by_cases hv : v = Memory.unlisted
    · simp [Memory.write, hv] at h
    · simp [Memory.write, hv] at h; exact .inl h
  | cons d m ih =>
    obtain ⟨k, w⟩ := d
    rw [Memory.write] at h
    split at h
    · split at h
      · exact .inr h
      · exact List.mem_cons.mp h
    · split at h
      · split at h
        · exact .inr (List.mem_cons_of_mem _ h)
        · rcases List.mem_cons.mp h with h | h
          · exact .inl h
          · exact .inr (List.mem_cons_of_mem _ h)
      · rcases List.mem_cons.mp h with h | h
        · exact .inr (h ▸ List.mem_cons_self)
        · rcases ih h with h | h
          · exact .inl h
          · exact .inr (List.mem_cons_of_mem _ h)

/-- A write keeps the canonical form. -/
theorem wf_write {m : Memory} (h : m.wf) (a : Nat) (v : Byte) : (m.write a v).wf := by
  induction m with
  | nil =>
    rw [Memory.write]
    split
    · exact wf_nil
    · next hv => exact wf_cons wf_nil (by simp) hv
  | cons d m ih =>
    obtain ⟨k, w⟩ := d
    have hlt := wf_lt h
    rw [Memory.write]
    split
    · next hak =>
      split
      · exact h
      · next hv =>
        refine wf_cons h (fun c hc => ?_) hv
        rcases List.mem_cons.mp hc with rfl | hc
        · exact hak
        · exact hak.trans (hlt c hc)
    · split
      · next hak =>
        subst hak
        split
        · exact wf_tail h
        · next hv => exact wf_cons (wf_tail h) hlt hv
      · refine wf_cons (ih (wf_tail h)) (fun c hc => ?_) (wf_head h)
        rcases mem_write hc with rfl | hc
        · simp only; omega
        · exact hlt c hc

/-- What a read finds after a write to a memory in canonical form. -/
theorem read_write {m : Memory} (h : m.wf) (a b : Nat) (v : Byte) :
    (m.write a v).read b = if b = a then v else m.read b := by
  induction m with
  | nil =>
    by_cases hv : v = Memory.unlisted
    · simp [Memory.write, Memory.read, hv]
    · simp [Memory.write, Memory.read, hv, eq_comm]
  | cons d m ih =>
    obtain ⟨k, w⟩ := d
    have hlt := wf_lt h
    by_cases hak : a < k
    · have hun : Memory.read ((k, w) :: m) a = Memory.unlisted := read_below fun c hc => by
        rcases List.mem_cons.mp hc with rfl | hc
        · exact hak
        · exact hak.trans (hlt c hc)
      by_cases hv : v = Memory.unlisted
      · rw [Memory.write, if_pos hak, if_pos hv]
        by_cases hb : b = a
        · rw [if_pos hb, hb, hun, hv]
        · rw [if_neg hb]
      · rw [Memory.write, if_pos hak, if_neg hv, Memory.read]
        by_cases hb : b = a
        · rw [if_pos hb.symm, if_pos hb]
        · rw [if_neg (Ne.symm hb), if_neg hb]
    · by_cases hk : a = k
      · subst hk
        by_cases hv : v = Memory.unlisted
        · rw [Memory.write, if_neg hak, if_pos rfl, if_pos hv]
          by_cases hb : b = a
          · rw [if_pos hb, hb, hv]; exact read_below hlt
          · rw [if_neg hb, Memory.read, if_neg (Ne.symm hb)]
        · rw [Memory.write, if_neg hak, if_pos rfl, if_neg hv, Memory.read, Memory.read]
          by_cases hb : b = a
          · rw [if_pos hb.symm, if_pos hb]
          · rw [if_neg (Ne.symm hb), if_neg hb, if_neg (Ne.symm hb)]
      · rw [Memory.write, if_neg hak, if_neg hk, Memory.read, Memory.read, ih (wf_tail h)]
        by_cases hb : k = b
        · rw [if_pos hb, if_pos hb, if_neg (by omega)]
        · rw [if_neg hb, if_neg hb]

/-- A read of the written address finds the written byte. -/
theorem read_write_same {m : Memory} (h : m.wf) (a : Nat) (v : Byte) : (m.write a v).read a = v := by
  rw [read_write h, if_pos rfl]

/-- A read of any other address finds what it found before. -/
theorem read_write_other {m : Memory} (h : m.wf) {a b : Nat} (v : Byte) (hb : b ≠ a) :
    (m.write a v).read b = m.read b := by
  rw [read_write h, if_neg hb]

end Sys2Proof.Machine
end

