-- ==== Sys2Proof/Laws/State.lean ====
section
/-! SUPPORT. One lemma per field of State and per update: what the update leaves in the field. -/

namespace Sys2Proof.Machine

variable (s : State)

@[simp] theorem delay_eq (n : Nat) : delay n s = s := rfl

@[simp] theorem record_cfg (e : Event) : (record e s).cfg = s.cfg := rfl
@[simp] theorem record_mem (e : Event) : (record e s).mem = s.mem := rfl
@[simp] theorem record_bps (e : Event) : (record e s).bps = s.bps := rfl
@[simp] theorem record_run (e : Event) : (record e s).run = s.run := rfl
@[simp] theorem record_stepState (e : Event) : (record e s).stepState = s.stepState := rfl
@[simp] theorem record_doe (e : Event) : (record e s).doe = s.doe := rfl
@[simp] theorem record_dout (e : Event) : (record e s).dout = s.dout := rfl
@[simp] theorem record_clk (e : Event) : (record e s).clk = s.clk := rfl
@[simp] theorem record_rstn (e : Event) : (record e s).rstn = s.rstn := rfl
@[simp] theorem record_rxq (e : Event) : (record e s).rxq = s.rxq := rfl
@[simp] theorem record_txq (e : Event) : (record e s).txq = s.txq := rfl
@[simp] theorem record_phase (e : Event) : (record e s).phase = s.phase := rfl
@[simp] theorem record_lines (e : Event) : (record e s).lines = s.lines := rfl
@[simp] theorem record_txRoom (e : Event) : (record e s).txRoom = s.txRoom := rfl
@[simp] theorem record_cpuIn (e : Event) : (record e s).cpuIn = s.cpuIn := rfl
@[simp] theorem record_cpuCount (e : Event) : (record e s).cpuCount = s.cpuCount := rfl
@[simp] theorem record_hostIn (e : Event) : (record e s).hostIn = s.hostIn := rfl
@[simp] theorem record_hostCount (e : Event) : (record e s).hostCount = s.hostCount := rfl
@[simp] theorem record_trace (e : Event) : (record e s).trace = s.trace ++ [e] := rfl

@[simp] theorem setHalted_cfg : (setHalted s).cfg = s.cfg := rfl
@[simp] theorem setHalted_mem : (setHalted s).mem = s.mem := rfl
@[simp] theorem setHalted_bps : (setHalted s).bps = s.bps := rfl
@[simp] theorem setHalted_run : (setHalted s).run = .halted := rfl
@[simp] theorem setHalted_stepState : (setHalted s).stepState = s.stepState := rfl
@[simp] theorem setHalted_doe : (setHalted s).doe = s.doe := rfl
@[simp] theorem setHalted_dout : (setHalted s).dout = s.dout := rfl
@[simp] theorem setHalted_clk : (setHalted s).clk = false := rfl
@[simp] theorem setHalted_rstn : (setHalted s).rstn = s.rstn := rfl
@[simp] theorem setHalted_rxq : (setHalted s).rxq = s.rxq := rfl
@[simp] theorem setHalted_txq : (setHalted s).txq = s.txq := rfl
@[simp] theorem setHalted_phase : (setHalted s).phase = s.phase := rfl
@[simp] theorem setHalted_lines : (setHalted s).lines = s.lines := rfl
@[simp] theorem setHalted_txRoom : (setHalted s).txRoom = s.txRoom := rfl
@[simp] theorem setHalted_cpuIn : (setHalted s).cpuIn = s.cpuIn := rfl
@[simp] theorem setHalted_cpuCount : (setHalted s).cpuCount = s.cpuCount := rfl
@[simp] theorem setHalted_hostIn : (setHalted s).hostIn = s.hostIn := rfl
@[simp] theorem setHalted_hostCount : (setHalted s).hostCount = s.hostCount := rfl
@[simp] theorem setHalted_trace : (setHalted s).trace = s.trace := rfl

@[simp] theorem setRunning_cfg : (setRunning s).cfg = s.cfg := rfl
@[simp] theorem setRunning_mem : (setRunning s).mem = s.mem := rfl
@[simp] theorem setRunning_bps : (setRunning s).bps = s.bps := rfl
@[simp] theorem setRunning_run : (setRunning s).run = .running := rfl
@[simp] theorem setRunning_stepState : (setRunning s).stepState = s.stepState := rfl
@[simp] theorem setRunning_doe : (setRunning s).doe = s.doe := rfl
@[simp] theorem setRunning_dout : (setRunning s).dout = s.dout := rfl
@[simp] theorem setRunning_clk : (setRunning s).clk = s.clk := rfl
@[simp] theorem setRunning_rstn : (setRunning s).rstn = s.rstn := rfl
@[simp] theorem setRunning_rxq : (setRunning s).rxq = s.rxq := rfl
@[simp] theorem setRunning_txq : (setRunning s).txq = s.txq := rfl
@[simp] theorem setRunning_phase : (setRunning s).phase = s.phase := rfl
@[simp] theorem setRunning_lines : (setRunning s).lines = s.lines := rfl
@[simp] theorem setRunning_txRoom : (setRunning s).txRoom = s.txRoom := rfl
@[simp] theorem setRunning_cpuIn : (setRunning s).cpuIn = s.cpuIn := rfl
@[simp] theorem setRunning_cpuCount : (setRunning s).cpuCount = s.cpuCount := rfl
@[simp] theorem setRunning_hostIn : (setRunning s).hostIn = s.hostIn := rfl
@[simp] theorem setRunning_hostCount : (setRunning s).hostCount = s.hostCount := rfl
@[simp] theorem setRunning_trace : (setRunning s).trace = s.trace := rfl

@[simp] theorem setStepState_cfg (v : StepState) : (setStepState v s).cfg = s.cfg := rfl
@[simp] theorem setStepState_mem (v : StepState) : (setStepState v s).mem = s.mem := rfl
@[simp] theorem setStepState_bps (v : StepState) : (setStepState v s).bps = s.bps := rfl
@[simp] theorem setStepState_run (v : StepState) : (setStepState v s).run = s.run := rfl
@[simp] theorem setStepState_stepState (v : StepState) : (setStepState v s).stepState = v := rfl
@[simp] theorem setStepState_doe (v : StepState) : (setStepState v s).doe = s.doe := rfl
@[simp] theorem setStepState_dout (v : StepState) : (setStepState v s).dout = s.dout := rfl
@[simp] theorem setStepState_clk (v : StepState) : (setStepState v s).clk = s.clk := rfl
@[simp] theorem setStepState_rstn (v : StepState) : (setStepState v s).rstn = s.rstn := rfl
@[simp] theorem setStepState_rxq (v : StepState) : (setStepState v s).rxq = s.rxq := rfl
@[simp] theorem setStepState_txq (v : StepState) : (setStepState v s).txq = s.txq := rfl
@[simp] theorem setStepState_phase (v : StepState) : (setStepState v s).phase = s.phase := rfl
@[simp] theorem setStepState_lines (v : StepState) : (setStepState v s).lines = s.lines := rfl
@[simp] theorem setStepState_txRoom (v : StepState) : (setStepState v s).txRoom = s.txRoom := rfl
@[simp] theorem setStepState_cpuIn (v : StepState) : (setStepState v s).cpuIn = s.cpuIn := rfl
@[simp] theorem setStepState_cpuCount (v : StepState) : (setStepState v s).cpuCount = s.cpuCount := rfl
@[simp] theorem setStepState_hostIn (v : StepState) : (setStepState v s).hostIn = s.hostIn := rfl
@[simp] theorem setStepState_hostCount (v : StepState) : (setStepState v s).hostCount = s.hostCount := rfl
@[simp] theorem setStepState_trace (v : StepState) : (setStepState v s).trace = s.trace := rfl

@[simp] theorem driveData_cfg (b : Byte) : (driveData b s).cfg = s.cfg := rfl
@[simp] theorem driveData_mem (b : Byte) : (driveData b s).mem = s.mem := rfl
@[simp] theorem driveData_bps (b : Byte) : (driveData b s).bps = s.bps := rfl
@[simp] theorem driveData_run (b : Byte) : (driveData b s).run = s.run := rfl
@[simp] theorem driveData_stepState (b : Byte) : (driveData b s).stepState = s.stepState := rfl
@[simp] theorem driveData_doe (b : Byte) : (driveData b s).doe = true := rfl
@[simp] theorem driveData_dout (b : Byte) : (driveData b s).dout = b := rfl
@[simp] theorem driveData_clk (b : Byte) : (driveData b s).clk = s.clk := rfl
@[simp] theorem driveData_rstn (b : Byte) : (driveData b s).rstn = s.rstn := rfl
@[simp] theorem driveData_rxq (b : Byte) : (driveData b s).rxq = s.rxq := rfl
@[simp] theorem driveData_txq (b : Byte) : (driveData b s).txq = s.txq := rfl
@[simp] theorem driveData_phase (b : Byte) : (driveData b s).phase = s.phase := rfl
@[simp] theorem driveData_lines (b : Byte) : (driveData b s).lines = s.lines := rfl
@[simp] theorem driveData_txRoom (b : Byte) : (driveData b s).txRoom = s.txRoom := rfl
@[simp] theorem driveData_cpuIn (b : Byte) : (driveData b s).cpuIn = s.cpuIn := rfl
@[simp] theorem driveData_cpuCount (b : Byte) : (driveData b s).cpuCount = s.cpuCount := rfl
@[simp] theorem driveData_hostIn (b : Byte) : (driveData b s).hostIn = s.hostIn := rfl
@[simp] theorem driveData_hostCount (b : Byte) : (driveData b s).hostCount = s.hostCount := rfl
@[simp] theorem driveData_trace (b : Byte) : (driveData b s).trace = s.trace ++ [.drive b] := rfl

@[simp] theorem releaseData_cfg : (releaseData s).cfg = s.cfg := rfl
@[simp] theorem releaseData_mem : (releaseData s).mem = s.mem := rfl
@[simp] theorem releaseData_bps : (releaseData s).bps = s.bps := rfl
@[simp] theorem releaseData_run : (releaseData s).run = s.run := rfl
@[simp] theorem releaseData_stepState : (releaseData s).stepState = s.stepState := rfl
@[simp] theorem releaseData_doe : (releaseData s).doe = false := rfl
@[simp] theorem releaseData_dout : (releaseData s).dout = s.dout := rfl
@[simp] theorem releaseData_clk : (releaseData s).clk = s.clk := rfl
@[simp] theorem releaseData_rstn : (releaseData s).rstn = s.rstn := rfl
@[simp] theorem releaseData_rxq : (releaseData s).rxq = s.rxq := rfl
@[simp] theorem releaseData_txq : (releaseData s).txq = s.txq := rfl
@[simp] theorem releaseData_phase : (releaseData s).phase = s.phase := rfl
@[simp] theorem releaseData_lines : (releaseData s).lines = s.lines := rfl
@[simp] theorem releaseData_txRoom : (releaseData s).txRoom = s.txRoom := rfl
@[simp] theorem releaseData_cpuIn : (releaseData s).cpuIn = s.cpuIn := rfl
@[simp] theorem releaseData_cpuCount : (releaseData s).cpuCount = s.cpuCount := rfl
@[simp] theorem releaseData_hostIn : (releaseData s).hostIn = s.hostIn := rfl
@[simp] theorem releaseData_hostCount : (releaseData s).hostCount = s.hostCount := rfl
@[simp] theorem releaseData_trace : (releaseData s).trace = s.trace ++ [.release] := rfl

@[simp] theorem clkAssert_cfg : (clkAssert s).cfg = s.cfg := rfl
@[simp] theorem clkAssert_mem : (clkAssert s).mem = s.mem := rfl
@[simp] theorem clkAssert_bps : (clkAssert s).bps = s.bps := rfl
@[simp] theorem clkAssert_run : (clkAssert s).run = s.run := rfl
@[simp] theorem clkAssert_stepState : (clkAssert s).stepState = s.stepState := rfl
@[simp] theorem clkAssert_doe : (clkAssert s).doe = s.doe := rfl
@[simp] theorem clkAssert_dout : (clkAssert s).dout = s.dout := rfl
@[simp] theorem clkAssert_clk : (clkAssert s).clk = true := rfl
@[simp] theorem clkAssert_rstn : (clkAssert s).rstn = s.rstn := rfl
@[simp] theorem clkAssert_rxq : (clkAssert s).rxq = s.rxq := rfl
@[simp] theorem clkAssert_txq : (clkAssert s).txq = s.txq := rfl
@[simp] theorem clkAssert_phase : (clkAssert s).phase = s.phase := rfl
@[simp] theorem clkAssert_lines : (clkAssert s).lines = s.lines := rfl
@[simp] theorem clkAssert_txRoom : (clkAssert s).txRoom = s.txRoom := rfl
@[simp] theorem clkAssert_cpuIn : (clkAssert s).cpuIn = s.cpuIn := rfl
@[simp] theorem clkAssert_cpuCount : (clkAssert s).cpuCount = s.cpuCount := rfl
@[simp] theorem clkAssert_hostIn : (clkAssert s).hostIn = s.hostIn := rfl
@[simp] theorem clkAssert_hostCount : (clkAssert s).hostCount = s.hostCount := rfl
@[simp] theorem clkAssert_trace : (clkAssert s).trace = s.trace ++ [.clkAssert] := rfl

@[simp] theorem clkDeassert_cfg : (clkDeassert s).cfg = s.cfg := rfl
@[simp] theorem clkDeassert_mem : (clkDeassert s).mem = s.mem := rfl
@[simp] theorem clkDeassert_bps : (clkDeassert s).bps = s.bps := rfl
@[simp] theorem clkDeassert_run : (clkDeassert s).run = s.run := rfl
@[simp] theorem clkDeassert_stepState : (clkDeassert s).stepState = s.stepState := rfl
@[simp] theorem clkDeassert_doe : (clkDeassert s).doe = s.doe := rfl
@[simp] theorem clkDeassert_dout : (clkDeassert s).dout = s.dout := rfl
@[simp] theorem clkDeassert_clk : (clkDeassert s).clk = false := rfl
@[simp] theorem clkDeassert_rstn : (clkDeassert s).rstn = s.rstn := rfl
@[simp] theorem clkDeassert_rxq : (clkDeassert s).rxq = s.rxq := rfl
@[simp] theorem clkDeassert_txq : (clkDeassert s).txq = s.txq := rfl
@[simp] theorem clkDeassert_phase : (clkDeassert s).phase = s.phase := rfl
@[simp] theorem clkDeassert_lines : (clkDeassert s).lines = s.lines := rfl
@[simp] theorem clkDeassert_txRoom : (clkDeassert s).txRoom = s.txRoom := rfl
@[simp] theorem clkDeassert_cpuIn : (clkDeassert s).cpuIn = s.cpuIn := rfl
@[simp] theorem clkDeassert_cpuCount : (clkDeassert s).cpuCount = s.cpuCount := rfl
@[simp] theorem clkDeassert_hostIn : (clkDeassert s).hostIn = s.hostIn := rfl
@[simp] theorem clkDeassert_hostCount : (clkDeassert s).hostCount = s.hostCount := rfl
@[simp] theorem clkDeassert_trace : (clkDeassert s).trace = s.trace ++ [.clkDeassert] := rfl

@[simp] theorem resetLow_cfg : (resetLow s).cfg = s.cfg := rfl
@[simp] theorem resetLow_mem : (resetLow s).mem = s.mem := rfl
@[simp] theorem resetLow_bps : (resetLow s).bps = s.bps := rfl
@[simp] theorem resetLow_run : (resetLow s).run = s.run := rfl
@[simp] theorem resetLow_stepState : (resetLow s).stepState = s.stepState := rfl
@[simp] theorem resetLow_doe : (resetLow s).doe = s.doe := rfl
@[simp] theorem resetLow_dout : (resetLow s).dout = s.dout := rfl
@[simp] theorem resetLow_clk : (resetLow s).clk = s.clk := rfl
@[simp] theorem resetLow_rstn : (resetLow s).rstn = false := rfl
@[simp] theorem resetLow_rxq : (resetLow s).rxq = s.rxq := rfl
@[simp] theorem resetLow_txq : (resetLow s).txq = s.txq := rfl
@[simp] theorem resetLow_phase : (resetLow s).phase = s.phase := rfl
@[simp] theorem resetLow_lines : (resetLow s).lines = s.lines := rfl
@[simp] theorem resetLow_txRoom : (resetLow s).txRoom = s.txRoom := rfl
@[simp] theorem resetLow_cpuIn : (resetLow s).cpuIn = s.cpuIn := rfl
@[simp] theorem resetLow_cpuCount : (resetLow s).cpuCount = s.cpuCount := rfl
@[simp] theorem resetLow_hostIn : (resetLow s).hostIn = s.hostIn := rfl
@[simp] theorem resetLow_hostCount : (resetLow s).hostCount = s.hostCount := rfl
@[simp] theorem resetLow_trace : (resetLow s).trace = s.trace ++ [.resetLow] := rfl

@[simp] theorem resetHigh_cfg : (resetHigh s).cfg = s.cfg := rfl
@[simp] theorem resetHigh_mem : (resetHigh s).mem = s.mem := rfl
@[simp] theorem resetHigh_bps : (resetHigh s).bps = s.bps := rfl
@[simp] theorem resetHigh_run : (resetHigh s).run = s.run := rfl
@[simp] theorem resetHigh_stepState : (resetHigh s).stepState = s.stepState := rfl
@[simp] theorem resetHigh_doe : (resetHigh s).doe = s.doe := rfl
@[simp] theorem resetHigh_dout : (resetHigh s).dout = s.dout := rfl
@[simp] theorem resetHigh_clk : (resetHigh s).clk = s.clk := rfl
@[simp] theorem resetHigh_rstn : (resetHigh s).rstn = true := rfl
@[simp] theorem resetHigh_rxq : (resetHigh s).rxq = s.rxq := rfl
@[simp] theorem resetHigh_txq : (resetHigh s).txq = s.txq := rfl
@[simp] theorem resetHigh_phase : (resetHigh s).phase = s.phase := rfl
@[simp] theorem resetHigh_lines : (resetHigh s).lines = s.lines := rfl
@[simp] theorem resetHigh_txRoom : (resetHigh s).txRoom = s.txRoom := rfl
@[simp] theorem resetHigh_cpuIn : (resetHigh s).cpuIn = s.cpuIn := rfl
@[simp] theorem resetHigh_cpuCount : (resetHigh s).cpuCount = s.cpuCount := rfl
@[simp] theorem resetHigh_hostIn : (resetHigh s).hostIn = s.hostIn := rfl
@[simp] theorem resetHigh_hostCount : (resetHigh s).hostCount = s.hostCount := rfl
@[simp] theorem resetHigh_trace : (resetHigh s).trace = s.trace ++ [.resetHigh] := rfl

@[simp] theorem deliver_cfg (bs : List Byte) : (deliver bs s).cfg = s.cfg := rfl
@[simp] theorem deliver_mem (bs : List Byte) : (deliver bs s).mem = s.mem := rfl
@[simp] theorem deliver_bps (bs : List Byte) : (deliver bs s).bps = s.bps := rfl
@[simp] theorem deliver_run (bs : List Byte) : (deliver bs s).run = s.run := rfl
@[simp] theorem deliver_stepState (bs : List Byte) : (deliver bs s).stepState = s.stepState := rfl
@[simp] theorem deliver_doe (bs : List Byte) : (deliver bs s).doe = s.doe := rfl
@[simp] theorem deliver_dout (bs : List Byte) : (deliver bs s).dout = s.dout := rfl
@[simp] theorem deliver_clk (bs : List Byte) : (deliver bs s).clk = s.clk := rfl
@[simp] theorem deliver_rstn (bs : List Byte) : (deliver bs s).rstn = s.rstn := rfl
@[simp] theorem deliver_rxq (bs : List Byte) : (deliver bs s).rxq = s.rxq := rfl
@[simp] theorem deliver_txq (bs : List Byte) : (deliver bs s).txq = s.txq ++ bs := rfl
@[simp] theorem deliver_phase (bs : List Byte) : (deliver bs s).phase = s.phase := rfl
@[simp] theorem deliver_lines (bs : List Byte) : (deliver bs s).lines = s.lines := rfl
@[simp] theorem deliver_txRoom (bs : List Byte) : (deliver bs s).txRoom = s.txRoom := rfl
@[simp] theorem deliver_cpuIn (bs : List Byte) : (deliver bs s).cpuIn = s.cpuIn := rfl
@[simp] theorem deliver_cpuCount (bs : List Byte) : (deliver bs s).cpuCount = s.cpuCount := rfl
@[simp] theorem deliver_hostIn (bs : List Byte) : (deliver bs s).hostIn = s.hostIn := rfl
@[simp] theorem deliver_hostCount (bs : List Byte) : (deliver bs s).hostCount = s.hostCount := rfl
@[simp] theorem deliver_trace (bs : List Byte) : (deliver bs s).trace = s.trace ++ bs.map .tx := rfl

end Sys2Proof.Machine
end

