-- ==== Sys2Proof/Laws/Ops.lean ====
section
/-! SUPPORT. For each shared operation, what it does, said once. -/

namespace Sys2Proof.Machine

variable {s : State}

/-- `memRead` answers the stored byte for a valid address and the sentinel for any other. -/
theorem memRead_eq (a : Addr) (s : State) :
    memRead a s =
      if a.toNat < s.cfg.memSize then (s.mem.read a.toNat, true) else (s.cfg.sentinel, false) := by
  simp [memRead, addressValid]

theorem memRead_valid {a : Addr} (h : a.toNat < s.cfg.memSize) : memRead a s = (s.mem.read a.toNat, true) := by
  rw [memRead_eq, if_pos h]

theorem memRead_invalid {a : Addr} (h : s.cfg.memSize ≤ a.toNat) : memRead a s = (s.cfg.sentinel, false) := by
  rw [memRead_eq, if_neg (by omega)]

/-- `memWrite` sets one cell at a valid address and changes nothing at any other. -/
theorem memWrite_eq (a : Addr) (b : Byte) (s : State) :
    memWrite a b s =
      if a.toNat < s.cfg.memSize then ({ s with mem := s.mem.write a.toNat b }, true) else (s, false) := by
  simp [memWrite, addressValid]

theorem memWrite_valid {a : Addr} (b : Byte) (h : a.toNat < s.cfg.memSize) :
    memWrite a b s = ({ s with mem := s.mem.write a.toNat b }, true) := by
  rw [memWrite_eq, if_pos h]

theorem memWrite_invalid {a : Addr} (b : Byte) (h : s.cfg.memSize ≤ a.toNat) : memWrite a b s = (s, false) := by
  rw [memWrite_eq, if_neg (by omega)]

/-- Whatever `memWrite` does, only the memory can differ, and it stays in form and within the store. -/
theorem memWrite_spec (a : Addr) (b : Byte) (s : State) :
    ∃ m, (memWrite a b s).1 = { s with mem := m } ∧ (s.mem.wf → m.wf) ∧
      ((∀ c ∈ s.mem, c.1 < s.cfg.memSize) → ∀ c ∈ m, c.1 < s.cfg.memSize) := by
  by_cases h : a.toNat < s.cfg.memSize
  · refine ⟨s.mem.write a.toNat b, by rw [memWrite_valid b h], fun hw => wf_write hw _ _, fun hs c hc => ?_⟩
    rcases mem_write hc with rfl | hc
    · exact h
    · exact hs c hc
  · exact ⟨s.mem, by rw [memWrite_invalid b (by omega)], id, id⟩

/-- `bpAdd` appends while the table has room and changes nothing otherwise. -/
theorem bpAdd_eq (a : Addr) (s : State) :
    bpAdd a s = if s.bps.length < s.cfg.bpCapacity then ({ s with bps := s.bps ++ [a] }, true) else (s, false) := rfl

/-- `transmit` with a channel that accepts every byte. -/
theorem transmit_ready (bs : List Byte) (h : s.txRoom = none) : transmit bs s = (deliver bs s, []) := by
  simp [transmit, h]

/-- `transmit` with a channel that accepts `n` bytes. -/
theorem transmit_room (bs : List Byte) {n : Nat} (h : s.txRoom = some n) :
    transmit bs s = (deliver (bs.take n) { s with txRoom := some (n - bs.length) }, bs.drop n) := by
  simp [transmit, h]

/-- Whatever the room, `transmit` delivers the front of the bytes and leaves the rest; only the queue, the trace and the room
change. -/
theorem transmit_spec (bs : List Byte) (s : State) :
    ∃ sent room, bs = sent ++ (transmit bs s).2 ∧
      (transmit bs s).1 = { s with txq := s.txq ++ sent, trace := s.trace ++ sent.map Event.tx, txRoom := room } := by
  cases h : s.txRoom with
  | none => exact ⟨bs, none, by simp [transmit_ready bs h], by simp [transmit_ready bs h, deliver, ← h]⟩
  | some n => exact ⟨bs.take n, some (n - bs.length), by simp [transmit_room bs h], by simp [transmit_room bs h, deliver]⟩

/-- A response on a channel that accepts every byte: all of it is sent and control is at the main loop. -/
theorem sendResponse_ready (bs : List Byte) (h : s.txRoom = none) :
    sendResponse bs s =
      { s with txq := s.txq ++ bs, trace := s.trace ++ bs.map Event.tx, phase := .atLoop } := by
  simp [sendResponse, transmit_ready bs h, deliver]

/-- A response on a channel that accepts at least all of it. -/
theorem sendResponse_fits (bs : List Byte) {n : Nat} (h : s.txRoom = some n) (hl : bs.length ≤ n) :
    sendResponse bs s =
      { s with txRoom := some (n - bs.length), txq := s.txq ++ bs, trace := s.trace ++ bs.map Event.tx,
               phase := .atLoop } := by
  have hd : bs.drop n = [] := by simp [hl]
  unfold sendResponse
  rw [transmit_room bs h]
  simp only [hd, List.take_of_length_le hl]
  rfl

/-- A response on a channel that accepts only part of it. -/
theorem sendResponse_waits (bs : List Byte) {n : Nat} (h : s.txRoom = some n) (hl : n < bs.length) :
    sendResponse bs s =
      { s with txRoom := some 0, txq := s.txq ++ bs.take n, trace := s.trace ++ (bs.take n).map Event.tx,
               phase := .responding (bs.drop n) } := by
  have hd : bs.drop n ≠ [] := by simp; omega
  obtain ⟨b, r, hb⟩ := List.exists_cons_of_ne_nil hd
  have h0 : n - bs.length = 0 := by omega
  unfold sendResponse
  rw [transmit_room bs h]
  simp only [hb, h0]
  rfl

/-- A response does not read the place it starts from. -/
theorem sendResponse_phase (bs : List Byte) (p : Phase) (s : State) :
    sendResponse bs { s with phase := p } = sendResponse bs s := by
  have hr : s.txRoom = none ∨ ∃ n, s.txRoom = some n := by
    cases s.txRoom with
    | none => exact .inl rfl
    | some n => exact .inr ⟨n, rfl⟩
  rcases hr with h | ⟨n, h⟩
  · rw [sendResponse_ready bs h, sendResponse_ready bs (s := { s with phase := p }) h]
  · by_cases hl : bs.length ≤ n
    · rw [sendResponse_fits bs h hl, sendResponse_fits bs (s := { s with phase := p }) h hl]
    · rw [sendResponse_waits bs h (by omega), sendResponse_waits bs (s := { s with phase := p }) h (by omega)]

/-- Whatever the room, a response changes the queue, the trace, the room and the phase only; the phase is the main loop, or
waits with the unsent rest. -/
theorem sendResponse_spec (bs : List Byte) (s : State) :
    ∃ sent rest room, bs = sent ++ rest ∧
      sendResponse bs s = { s with txq := s.txq ++ sent, trace := s.trace ++ sent.map Event.tx, txRoom := room, phase := if rest = [] then Phase.atLoop else Phase.responding rest } := by
  obtain ⟨sent, room, h₁, h₂⟩ := transmit_spec bs s
  refine ⟨sent, (transmit bs s).2, room, h₁, ?_⟩
  rw [sendResponse]
  cases h : (transmit bs s).2 with
  | nil => simp [h₂]
  | cons b rest => simp [h₂]

theorem respond_ready (t : Text) (h : s.txRoom = none) :
    respond t s = { s with txq := s.txq ++ textBytes t, trace := s.trace ++ (textBytes t).map Event.tx, phase := .atLoop } :=
  sendResponse_ready _ h

theorem raiseError_eq (t : Text) (s : State) : raiseError t s = respond t s := rfl

/-- Every text ends with the bytes of `NEWLINE`, so none is empty. -/
theorem textBytes_ne_nil (t : Text) : textBytes t ≠ [] := by simp [textBytes, newlineBytes]

/-- Every byte of a text is ASCII. -/
theorem textBytes_ascii (t : Text) : ∀ b ∈ textBytes t, b.toNat < 128 := by
  have h : ∀ v : BitVec 7, (v.setWidth 8).toNat < 128 := fun v => by
    have := v.isLt
    simp only [BitVec.toNat_setWidth]; omega
  intro b hb
  simp only [textBytes, newlineBytes, List.mem_append, List.mem_map, List.mem_cons] at hb
  rcases hb with ⟨v, -, rfl⟩ | rfl | ⟨v, -, rfl⟩ <;> exact h _

/-- `BUS.READ` as one update. -/
theorem serveRead_eq (a : Addr) (s : State) :
    serveRead a s =
      { s with dout := (memRead a s).1, doe := false, trace := s.trace ++ [.drive (memRead a s).1, .release] } := by
  simp [serveRead, releaseData, driveData, record, delay]

/-- `BUS.WRITE` as one update. -/
theorem serveWrite_eq (a : Addr) (s : State) :
    serveWrite a s =
      { s with doe := false, trace := s.trace ++ [.release],
               mem := if a.toNat < s.cfg.memSize then s.mem.write a.toNat s.lines.data else s.mem } := by
  by_cases h : a.toNat < s.cfg.memSize
  · simp [serveWrite, memWrite_eq, h, releaseData, record, sampleData]
  · simp [serveWrite, memWrite_eq, h, releaseData, record, sampleData]

/-- The end of a hit: a release, and a served write only with `BP_HIT_COMMITS_WRITE` on a write cycle. -/
theorem endHit_eq (a : Addr) (rnw : Bool) (s : State) :
    endHit a rnw s =
      if s.cfg.bpHitCommitsWrite = true ∧ rnw = false then serveWrite a (releaseData s) else releaseData s := by
  cases rnw <;> simp [endHit]

/-- The breakpoint stop on a channel that accepts every byte. -/
theorem debugStop_ready (a : Addr) (rnw : Bool) (h : s.txRoom = none) :
    debugStop a rnw s = endHit a rnw (deliver (textBytes (.breakpointReached a)) (setHalted s)) := by
  simp [debugStop, transmit_ready _ (s := setHalted s) h]

/-- What the end of a hit can change: the lines are released, at most the cell of the hit is written, and the events are
releases. -/
theorem endHit_spec (a : Addr) (rnw : Bool) (s : State) :
    ∃ es m, endHit a rnw s = { s with doe := false, mem := m, trace := s.trace ++ es } ∧
      (∀ e ∈ es, e = Event.release) ∧
      m = if rnw = false ∧ s.cfg.bpHitCommitsWrite = true ∧ a.toNat < s.cfg.memSize then
            s.mem.write a.toNat s.lines.data
          else s.mem := by
  rw [endHit_eq]
  by_cases h : s.cfg.bpHitCommitsWrite = true ∧ rnw = false
  · refine ⟨[.release, .release], _, by rw [if_pos h, serveWrite_eq]; simp [releaseData, record]; rfl, by simp, ?_⟩
    by_cases ha : a.toNat < s.cfg.memSize <;> simp [h.1, h.2, ha]
  · refine ⟨[.release], s.mem, by rw [if_neg h]; rfl, by simp, ?_⟩
    rw [if_neg]; rintro ⟨h1, h2, -⟩; exact h ⟨h2, h1⟩

/-- The breakpoint stop, whatever the room: it ends, or it waits inside the notification; in both it is Halted. -/
theorem debugStop_cases (a : Addr) (rnw : Bool) (s : State) :
    ∃ sent room,
      (sent = textBytes (.breakpointReached a) ∧
        debugStop a rnw s = endHit a rnw { setHalted s with
          txq := s.txq ++ sent, trace := s.trace ++ sent.map Event.tx, txRoom := room }) ∨
      (∃ rest, rest ≠ [] ∧ textBytes (.breakpointReached a) = sent ++ rest ∧
        debugStop a rnw s = { setHalted s with
          txq := s.txq ++ sent, trace := s.trace ++ sent.map Event.tx, txRoom := room,
          phase := .notifying rest a rnw s.phase.inStep }) := by
  obtain ⟨sent, room, h₁, h₂⟩ := transmit_spec (textBytes (.breakpointReached a)) (setHalted s)
  refine ⟨sent, room, ?_⟩
  unfold debugStop
  cases h : (transmit (textBytes (.breakpointReached a)) (setHalted s)).2 with
  | nil => exact .inl ⟨by rw [h₁, h, List.append_nil], by simp only [h, h₂]; rfl⟩
  | cons b rest => exact .inr ⟨b :: rest, by simp, by rw [h₁, h], by simp only [h, h₂]; rfl⟩

/-- The breakpoint stop on a channel with no room for the whole notification: Halted, and waiting inside it. -/
theorem debugStop_waits (a : Addr) (rnw : Bool) {n : Nat} (h : s.txRoom = some n)
    (hl : n < (textBytes (.breakpointReached a)).length) :
    debugStop a rnw s = { s with
      run := .halted, clk := false, txRoom := some 0, txq := s.txq ++ (textBytes (.breakpointReached a)).take n,
      trace := s.trace ++ ((textBytes (.breakpointReached a)).take n).map Event.tx,
      phase := .notifying ((textBytes (.breakpointReached a)).drop n) a rnw s.phase.inStep } := by
  have hd : (textBytes (.breakpointReached a)).drop n ≠ [] := by simp; omega
  obtain ⟨b, r, hb⟩ := List.exists_cons_of_ne_nil hd
  have h0 : n - (textBytes (.breakpointReached a)).length = 0 := by omega
  unfold debugStop
  rw [transmit_room (s := setHalted s) _ (n := n) h]
  simp only [hb, h0]
  rfl

/-- A clock pulse as one update. -/
theorem clockPulse_eq (s : State) :
    clockPulse s = { s with clk := false, trace := s.trace ++ [.clkAssert, .clkDeassert] } := by
  simp [clockPulse, clkAssert, clkDeassert, record, delay]

/-- The reset pulse as one update. -/
theorem resetPulse_eq (s : State) :
    resetPulse s = { s with rstn := true, trace := s.trace ++ [.resetLow, .resetHigh] } := by
  simp [resetPulse, resetLow, resetHigh, record, delay]

/-- A new bus cycle changes the lines and the two fields the answer comes from. -/
theorem presentCycle_spec (s : State) :
    ∃ l cs n, presentCycle s = { s with lines := l, cpuIn := cs, cpuCount := n } := by
  unfold presentCycle
  split
  · exact ⟨_, _, s.cpuCount, rfl⟩
  · next h => exact ⟨_, [], _, by rw [h]⟩

theorem presentCycle_script {c : BusLines} {cs : List BusLines} (h : s.cpuIn = c :: cs) :
    presentCycle s = { s with lines := c, cpuIn := cs } := by
  simp [presentCycle, h]

/-- The host's turn appends to the receive queue and sets the room; nothing of the block changes. -/
theorem pollHost_spec (s : State) :
    ∃ bs room ts n, pollHost s = { s with rxq := s.rxq ++ bs, txRoom := room, hostIn := ts, hostCount := n } := by
  unfold pollHost
  split
  · exact ⟨_, _, _, s.hostCount, rfl⟩
  · next h => exact ⟨_, _, [], _, by rw [h]⟩

theorem pollHost_script {t : HostTurn} {ts : List HostTurn} (h : s.hostIn = t :: ts) :
    pollHost s = { s with rxq := s.rxq ++ t.sends, txRoom := t.room, hostIn := ts } := by
  simp [pollHost, h]

/-- What `drainLoad` can do: it takes bytes and waits for the next, or it takes all of them and reports. -/
theorem drainLoad_spec (addr : Addr) (i left : Nat) (s : State) :
    (s.rxq.length < left ∧
      drainLoad addr i left s = { s with rxq := [], phase := .draining addr i (left - s.rxq.length) }) ∨
    (left ≤ s.rxq.length ∧
      drainLoad addr i left s = raiseError (.partialLoadFailure addr i) { s with rxq := s.rxq.drop left }) := by
  induction left generalizing s with
  | zero => exact .inr ⟨Nat.zero_le _, by simp [drainLoad]⟩
  | succ n ih =>
    cases h : s.rxq with
    | nil => exact .inl ⟨by simp, by cases s; simp_all [drainLoad, rxByte]⟩
    | cons b rest =>
      have hstep : drainLoad addr i (n + 1) s = drainLoad addr i n { s with rxq := rest } := by
        simp [drainLoad, rxByte, h]
      rcases ih { s with rxq := rest } with ⟨hl, he⟩ | ⟨hl, he⟩
      · exact .inl ⟨by simpa using hl, by rw [hstep, he]; simp⟩
      · exact .inr ⟨by simpa using hl, by rw [hstep, he]; simp⟩

/-- One round of the loop of `L` with a byte in the queue. -/
theorem loadBytes_cons (addr : Addr) (left i : Nat) {b : Byte} {rest : List Byte} (h : s.rxq = b :: rest) :
    loadBytes addr (left + 1) i s =
      if (loadAddress addr i).toNat < s.cfg.memSize then
        loadBytes addr left (i + 1)
          { s with rxq := rest, mem := s.mem.write (loadAddress addr i).toNat b }
      else abortLoad addr i left { s with rxq := rest } := by
  by_cases hv : (loadAddress addr i).toNat < s.cfg.memSize
  · simp [loadBytes, rxByte, h, memWrite_eq, hv]
  · simp [loadBytes, rxByte, h, memWrite_eq, hv]

/-- The loop of `L` with no byte in the queue waits. -/
theorem loadBytes_nil (addr : Addr) (left i : Nat) (h : s.rxq = []) :
    loadBytes addr (left + 1) i s = { s with phase := .loading addr i (left + 1) } := by
  simp [loadBytes, rxByte, h]

/-- What the loop of `L` can do, whatever the bytes: it answers the success text, the failure text, or waits for a byte
(inside the load or inside its drain); only the memory and the queue change besides what a response changes. -/
theorem loadBytes_spec (addr : Addr) (left i : Nat) (s : State) :
    ∃ m q, (s.mem.wf → m.wf) ∧
      ((∀ c ∈ s.mem, c.1 < s.cfg.memSize) → ∀ c ∈ m, c.1 < s.cfg.memSize) ∧
      (loadBytes addr left i s = respond .statusLoad { s with mem := m, rxq := q } ∨
       (∃ j, loadBytes addr left i s = raiseError (.partialLoadFailure addr j) { s with mem := m, rxq := q }) ∨
       (∃ j l, 0 < l ∧ j + l = i + left ∧
          loadBytes addr left i s = { s with mem := m, rxq := q, phase := .loading addr j l }) ∨
       (∃ j l, 0 < l ∧ j + l < i + left ∧
          loadBytes addr left i s = { s with mem := m, rxq := q, phase := .draining addr j l })) := by
  induction left generalizing i s with
  | zero => exact ⟨s.mem, s.rxq, id, id, .inl (by simp [loadBytes])⟩
  | succ n ih =>
    cases h : s.rxq with
    | nil => exact ⟨s.mem, [], id, id, .inr (.inr (.inl ⟨i, n + 1, by omega, rfl, by rw [loadBytes_nil addr n i h, ← h]⟩))⟩
    | cons b rest =>
      by_cases hv : (loadAddress addr i).toNat < s.cfg.memSize
      · obtain ⟨m, q, hw, hs, hc⟩ := ih (i + 1)
          { s with rxq := rest, mem := s.mem.write (loadAddress addr i).toNat b }
        refine ⟨m, q, fun h0 => hw (wf_write h0 _ _), fun h0 => hs fun c hc => ?_, ?_⟩
        · rcases mem_write hc with rfl | hc
          · exact hv
          · exact h0 c hc
        · rw [loadBytes_cons addr n i h, if_pos hv]
          rcases hc with hc | ⟨j, hc⟩ | ⟨j, l, h1, h2, hc⟩ | ⟨j, l, h1, h2, hc⟩
          · exact .inl hc
          · exact .inr (.inl ⟨j, hc⟩)
          · exact .inr (.inr (.inl ⟨j, l, h1, by omega, hc⟩))
          · exact .inr (.inr (.inr ⟨j, l, h1, by omega, hc⟩))
      · rw [loadBytes_cons addr n i h, if_neg hv]
        by_cases hd : s.cfg.loadAbortDrains = true
        · have ha : abortLoad addr i n { s with rxq := rest } = drainLoad addr i n { s with rxq := rest } := by
            simp [abortLoad, hd]
          rcases drainLoad_spec addr i n { s with rxq := rest } with ⟨hl, he⟩ | ⟨hl, he⟩
          · simp only at hl he
            exact ⟨s.mem, [], id, id, .inr (.inr (.inr ⟨i, n - rest.length, by omega, by omega, by rw [ha, he]⟩))⟩
          · exact ⟨s.mem, rest.drop n, id, id, .inr (.inl ⟨i, by rw [ha, he]⟩)⟩
        · exact ⟨s.mem, rest, id, id, .inr (.inl ⟨i, by simp [abortLoad, hd]⟩)⟩

end Sys2Proof.Machine
end

