-- ==== Sys2Proof/Laws/Control.lean ====
section
/-! SUPPORT. What one step of the machine is, by the place of the thread of control, and what the responder can do. -/

namespace Sys2Proof.Machine

variable {s : State}

theorem step_eq (s : State) : step s = advance (pollHost s) := rfl

theorem advance_atLoop (h : s.phase = .atLoop) : advance s = mainLoop s := by simp [advance, h]

theorem advance_receiving {got : List Byte} (h : s.phase = .receiving got) : advance s = takeCommand got s := by
  simp [advance, h]

theorem advance_loading {addr : Addr} {i left : Nat} (h : s.phase = .loading addr i left) :
    advance s = .next (loadBytes addr left i s) := by simp [advance, h]

theorem advance_draining {addr : Addr} {i left : Nat} (h : s.phase = .draining addr i left) :
    advance s = .next (drainLoad addr i left s) := by simp [advance, h]

theorem advance_stepping (h : s.phase = .stepping) : advance s = stepIteration s := by simp [advance, h]

theorem advance_responding {bs : List Byte} (h : s.phase = .responding bs) :
    advance s = .next (sendResponse bs s) := by simp [advance, h]

theorem advance_notifying {bs : List Byte} {a : Addr} {r b : Bool} (h : s.phase = .notifying bs a r b) :
    advance s = .next (resumeNotification bs a r b s) := by simp [advance, h]

/-- The three things one pass of the main loop can be (R150). -/
theorem mainLoop_cases (s : State) :
    (s.rxq ≠ [] ∧ mainLoop s = takeCommand [] s) ∨
    (s.rxq = [] ∧ s.run = .running ∧ mainLoop s = busCycle s) ∨
    (s.rxq = [] ∧ s.run = .halted ∧ mainLoop s = .next s) := by
  unfold mainLoop
  cases hq : s.rxq with
  | cons b q => exact .inl ⟨by simp, rfl⟩
  | nil => cases hr : s.run with
    | running => exact .inr (.inl ⟨rfl, rfl, rfl⟩)
    | halted => exact .inr (.inr ⟨rfl, rfl, rfl⟩)

/-- The one operation a responder invocation performs, on the state with the new cycle on its lines (R85). -/
theorem busCycle_cases (s : State) :
    let p := presentCycle s
    let b := p.lines.sample
    (bpContains b.addr p = true ∧ busCycle s = .next (debugStop b.addr b.rnw p)) ∨
    (bpContains b.addr p = false ∧ b.rnw = true ∧ busCycle s = .next (serveRead b.addr p)) ∨
    (bpContains b.addr p = false ∧ b.rnw = false ∧ busCycle s = .next (serveWrite b.addr p)) := by
  intro p b
  have h : busCycle s = exec (selectOperation (bpContains b.addr p) b) p := rfl
  rw [h]
  cases hb : bpContains b.addr p with
  | true => exact .inl ⟨rfl, rfl⟩
  | false => cases hr : b.rnw with
    | true => exact .inr (.inl ⟨rfl, rfl, by simp [selectOperation, hr, exec, execBusRead]⟩)
    | false => exact .inr (.inr ⟨rfl, rfl, by simp [selectOperation, hr, exec, execBusWrite]⟩)

/-- The four cases of the controller's transition (R103). -/
theorem controllerTransition_cases (s : State) :
    controllerTransition s =
      if s.stepState = .awaitSyncRise then
        (if s.lines.syncAfter then { s with stepState := .awaitSyncFall } else s)
      else (if s.lines.syncAfter then s else respond .statusStep s) := by
  unfold controllerTransition sampleSync
  cases s.stepState <;> cases s.lines.syncAfter <;> simp [setStepState]

end Sys2Proof.Machine
end

