-- ==== Sys2Proof/Laws/Decode.lean ====
section
/-! SUPPORT. The decoder's equations, format by format, and the one lemma that says what it can answer. -/

namespace Sys2Proof

@[simp] theorem u16OfBytes_high_low (v : BitVec 16) : u16OfBytes (u16High v) (u16Low v) = v := by
  apply BitVec.eq_of_toNat_eq
  have := v.isLt
  simp only [u16OfBytes, u16High, u16Low, BitVec.toNat_ofNat]
  omega

theorem u16OfBytes_toNat (h l : Byte) : (u16OfBytes h l).toNat = h.toNat * 256 + l.toNat := by
  have := h.isLt
  have := l.isLt
  simp only [u16OfBytes, BitVec.toNat_ofNat]
  omega

@[simp] theorem u16High_u16OfBytes (h l : Byte) : u16High (u16OfBytes h l) = h := by
  apply BitVec.eq_of_toNat_eq
  have := h.isLt
  have := l.isLt
  simp only [u16High, BitVec.toNat_ofNat, u16OfBytes_toNat]
  omega

@[simp] theorem u16Low_u16OfBytes (h l : Byte) : u16Low (u16OfBytes h l) = l := by
  apply BitVec.eq_of_toNat_eq
  have := h.isLt
  have := l.isLt
  simp only [u16Low, BitVec.toNat_ofNat, u16OfBytes_toNat]
  omega

theorem argumentBytes_eq_zero {c : Byte} (h : argumentBytes c = 0) : c ≠ 0x57#8 ∧ c ≠ 0x4D#8 ∧ c ≠ 0x4C#8 ∧ c ≠ 0x42#8 := by
  refine ⟨?_, ?_, ?_, ?_⟩ <;> rintro rfl <;> exact absurd h (by decide)

theorem argumentBytes_ne_zero {c : Byte} (h : argumentBytes c ≠ 0) : c = 0x57#8 ∨ c = 0x4D#8 ∨ c = 0x4C#8 ∨ c = 0x42#8 := by
  unfold argumentBytes at h
  split at h
  · exact .inl ‹_›
  · split at h
    · exact .inr (.inl ‹_›)
    · split at h
      · exact .inr (.inr (.inl ‹_›))
      · split at h
        · exact .inr (.inr (.inr ‹_›))
        · exact absurd rfl h

/-- The command code byte alone decides the format (R56): what the decoder answers for each code. -/
theorem decodeCommand_cases (c : Byte) (args : List Byte) :
    (c = 0x52#8 ∧ decodeCommand (c :: args) = .ok (.reset, args)) ∨
    (c = 0x48#8 ∧ decodeCommand (c :: args) = .ok (.halt, args)) ∨
    (c = 0x43#8 ∧ decodeCommand (c :: args) = .ok (.cont, args)) ∨
    (c = 0x53#8 ∧ decodeCommand (c :: args) = .ok (.stepOne, args)) ∨
    (c = 0x47#8 ∧ decodeCommand (c :: args) = .ok (.getRegisters, args)) ∨
    ((Instr.unknown c).WellFormed = true ∧ decodeCommand (c :: args) = .ok (.unknown c, args)) ∨
    (∃ ah al rest, c = 0x4D#8 ∧ args = ah :: al :: rest ∧
      decodeCommand (c :: args) = .ok (.read (u16OfBytes ah al), rest)) ∨
    (∃ ah al rest, c = 0x42#8 ∧ args = ah :: al :: rest ∧
      decodeCommand (c :: args) = .ok (.setBreakpoint (u16OfBytes ah al), rest)) ∨
    (∃ ah al d rest, c = 0x57#8 ∧ args = ah :: al :: d :: rest ∧
      decodeCommand (c :: args) = .ok (.write (u16OfBytes ah al) d, rest)) ∨
    (∃ ah al sh sl rest, c = 0x4C#8 ∧ args = ah :: al :: sh :: sl :: rest ∧
      decodeCommand (c :: args) = .ok (.load (u16OfBytes ah al) (u16OfBytes sh sl), rest)) ∨
    (args.length < argumentBytes c ∧
      decodeCommand (c :: args) = .error (.argumentMissing c (argumentBytes c - args.length))) := by
  by_cases h1 : c = 0x52#8
  · exact .inl ⟨h1, by simp [decodeCommand, h1]⟩
  by_cases h2 : c = 0x48#8
  · exact .inr (.inl ⟨h2, by simp [decodeCommand, h2]⟩)
  by_cases h3 : c = 0x43#8
  · exact .inr (.inr (.inl ⟨h3, by simp [decodeCommand, h3]⟩))
  by_cases h4 : c = 0x53#8
  · exact .inr (.inr (.inr (.inl ⟨h4, by simp [decodeCommand, h4]⟩)))
  by_cases h5 : c = 0x47#8
  · exact .inr (.inr (.inr (.inr (.inl ⟨h5, by simp [decodeCommand, h5]⟩))))
  refine .inr (.inr (.inr (.inr (.inr ?_))))
  by_cases h6 : argumentBytes c = 0
  · obtain ⟨h7, h8, h9, h10⟩ := argumentBytes_eq_zero h6
    exact .inl ⟨by simp [Instr.WellFormed, commandCodes, h1, h2, h3, h4, h5, h7, h8, h9, h10],
      by simp [decodeCommand, h1, h2, h3, h4, h5, h6]⟩
  refine .inr ?_
  have hd : decodeCommand (c :: args) = decodeArguments c args := by simp [decodeCommand, h1, h2, h3, h4, h5, h6]
  rw [hd]
  rcases argumentBytes_ne_zero h6 with rfl | rfl | rfl | rfl
  · match args with
    | [] => exact .inr (.inr (.inr (.inr (by simp [decodeArguments, argumentBytes]))))
    | [_] => exact .inr (.inr (.inr (.inr (by simp [decodeArguments, argumentBytes]))))
    | [_, _] => exact .inr (.inr (.inr (.inr (by simp [decodeArguments, argumentBytes]))))
    | ah :: al :: d :: rest => exact .inr (.inr (.inl ⟨ah, al, d, rest, rfl, rfl, by simp [decodeArguments]⟩))
  · match args with
    | [] => exact .inr (.inr (.inr (.inr (by simp [decodeArguments, argumentBytes]))))
    | [_] => exact .inr (.inr (.inr (.inr (by simp [decodeArguments, argumentBytes]))))
    | ah :: al :: rest => exact .inl ⟨ah, al, rest, rfl, rfl, by simp [decodeArguments]⟩
  · match args with
    | [] => exact .inr (.inr (.inr (.inr (by simp [decodeArguments, argumentBytes]))))
    | [_] => exact .inr (.inr (.inr (.inr (by simp [decodeArguments, argumentBytes]))))
    | [_, _] => exact .inr (.inr (.inr (.inr (by simp [decodeArguments, argumentBytes]))))
    | [_, _, _] => exact .inr (.inr (.inr (.inr (by simp [decodeArguments, argumentBytes]))))
    | ah :: al :: sh :: sl :: rest =>
      exact .inr (.inr (.inr (.inl ⟨ah, al, sh, sl, rest, rfl, rfl, by simp [decodeArguments]⟩)))
  · match args with
    | [] => exact .inr (.inr (.inr (.inr (by simp [decodeArguments, argumentBytes]))))
    | [_] => exact .inr (.inr (.inr (.inr (by simp [decodeArguments, argumentBytes]))))
    | ah :: al :: rest => exact .inr (.inl ⟨ah, al, rest, rfl, rfl, by simp [decodeArguments]⟩)

end Sys2Proof
end

