-- ==== Sys2Proof/Laws/Step.lean ====
section
/-! SUPPORT. The inversion of one step: everything a step of the machine can be, said once. -/

namespace Sys2Proof.Machine

/-- The host's turn changes no element of the block. -/
theorem pollHost_block (s : State) :
    (pollHost s).cfg = s.cfg ∧ (pollHost s).mem = s.mem ∧ (pollHost s).bps = s.bps ∧ (pollHost s).run = s.run ∧
    (pollHost s).stepState = s.stepState ∧ (pollHost s).doe = s.doe ∧ (pollHost s).dout = s.dout ∧
    (pollHost s).clk = s.clk ∧ (pollHost s).rstn = s.rstn ∧ (pollHost s).txq = s.txq ∧
    (pollHost s).phase = s.phase ∧ (pollHost s).lines = s.lines ∧ (pollHost s).trace = s.trace := by
  obtain ⟨bs, room, ts, n, h⟩ := pollHost_spec s
  rw [h]; simp

@[simp] theorem pollHost_cfg (s : State) : (pollHost s).cfg = s.cfg := (pollHost_block s).1
@[simp] theorem pollHost_mem (s : State) : (pollHost s).mem = s.mem := (pollHost_block s).2.1
@[simp] theorem pollHost_bps (s : State) : (pollHost s).bps = s.bps := (pollHost_block s).2.2.1
@[simp] theorem pollHost_run (s : State) : (pollHost s).run = s.run := (pollHost_block s).2.2.2.1
@[simp] theorem pollHost_stepState (s : State) : (pollHost s).stepState = s.stepState := (pollHost_block s).2.2.2.2.1
@[simp] theorem pollHost_doe (s : State) : (pollHost s).doe = s.doe := (pollHost_block s).2.2.2.2.2.1
@[simp] theorem pollHost_dout (s : State) : (pollHost s).dout = s.dout := (pollHost_block s).2.2.2.2.2.2.1
@[simp] theorem pollHost_clk (s : State) : (pollHost s).clk = s.clk := (pollHost_block s).2.2.2.2.2.2.2.1
@[simp] theorem pollHost_rstn (s : State) : (pollHost s).rstn = s.rstn := (pollHost_block s).2.2.2.2.2.2.2.2.1
@[simp] theorem pollHost_txq (s : State) : (pollHost s).txq = s.txq := (pollHost_block s).2.2.2.2.2.2.2.2.2.1
@[simp] theorem pollHost_phase (s : State) : (pollHost s).phase = s.phase :=
  (pollHost_block s).2.2.2.2.2.2.2.2.2.2.1
@[simp] theorem pollHost_lines (s : State) : (pollHost s).lines = s.lines :=
  (pollHost_block s).2.2.2.2.2.2.2.2.2.2.2.1
@[simp] theorem pollHost_trace (s : State) : (pollHost s).trace = s.trace :=
  (pollHost_block s).2.2.2.2.2.2.2.2.2.2.2.2

/-- A command decodes to a host command: never to a bus-cycle operation. -/
theorem takeCommand_cases (got : List Byte) (s : State) :
    (∃ i rest, decodeCommand (got ++ s.rxq) = .ok (i, rest) ∧
      takeCommand got s = exec i { s with rxq := rest, phase := .atLoop }) ∨
    (∃ e, decodeCommand (got ++ s.rxq) = .error e ∧
      takeCommand got s = .next { s with rxq := [], phase := .receiving (got ++ s.rxq) }) := by
  unfold takeCommand
  cases h : decodeCommand (got ++ s.rxq) with
  | ok r => exact .inl ⟨r.1, r.2, rfl, rfl⟩
  | error e => exact .inr ⟨e, rfl, rfl⟩

/-- Everything a step can be: it runs a command; it takes what has arrived of one; it serves a bus cycle from the main loop; it
idles; or it goes on with what the thread of control is inside. -/
theorem step_cases (s : State) :
    (∃ i rest, commandTaken s = some (i, rest) ∧
      step s = exec i { pollHost s with rxq := rest, phase := .atLoop }) ∨
    (∃ got e, (s.phase = .atLoop ∧ (pollHost s).rxq ≠ [] ∧ got = [] ∨ s.phase = .receiving got) ∧
      decodeCommand (got ++ (pollHost s).rxq) = .error e ∧ commandTaken s = none ∧
      step s = .next { pollHost s with rxq := [], phase := .receiving (got ++ (pollHost s).rxq) }) ∨
    (s.phase = .atLoop ∧ (pollHost s).rxq = [] ∧ s.run = .running ∧ servesCycle s ∧ step s = busCycle (pollHost s)) ∨
    (s.phase = .atLoop ∧ (pollHost s).rxq = [] ∧ s.run = .halted ∧ step s = .next (pollHost s)) ∨
    (∃ addr i left, s.phase = .loading addr i left ∧ step s = .next (loadBytes addr left i (pollHost s))) ∨
    (∃ addr i left, s.phase = .draining addr i left ∧ step s = .next (drainLoad addr i left (pollHost s))) ∨
    (s.phase = .stepping ∧ servesCycle s ∧ step s = stepIteration (pollHost s)) ∨
    (∃ bs, s.phase = .responding bs ∧ step s = .next (sendResponse bs (pollHost s))) ∨
    (∃ bs a r b, s.phase = .notifying bs a r b ∧ step s = .next (resumeNotification bs a r b (pollHost s))) := by
  have hp : (pollHost s).phase = s.phase := pollHost_phase s
  rw [step_eq]
  cases h : s.phase with
  | atLoop =>
    rw [h] at hp
    rw [advance_atLoop hp]
    rcases mainLoop_cases (pollHost s) with ⟨hq, he⟩ | ⟨hq, hr, he⟩ | ⟨hq, hr, he⟩
    · rcases takeCommand_cases [] (pollHost s) with ⟨i, rest, hd, hc⟩ | ⟨e, hd, hc⟩
      · refine .inl ⟨i, rest, ?_, by rw [he, hc]⟩
        rw [List.nil_append] at hd
        simp [commandTaken, h, hd, Except.toOption]
      · refine .inr (.inl ⟨[], e, .inl ⟨rfl, hq, rfl⟩, hd, ?_, by rw [he, hc]⟩)
        rw [List.nil_append] at hd
        simp [commandTaken, h, hd, Except.toOption]
    · rw [pollHost_run] at hr
      exact .inr (.inr (.inl ⟨rfl, hq, hr, .inr ⟨hp, hq, by rw [pollHost_run]; exact hr⟩, he⟩))
    · rw [pollHost_run] at hr
      exact .inr (.inr (.inr (.inl ⟨rfl, hq, hr, he⟩)))
  | receiving got =>
    rw [h] at hp
    rw [advance_receiving hp]
    rcases takeCommand_cases got (pollHost s) with ⟨i, rest, hd, hc⟩ | ⟨e, hd, hc⟩
    · exact .inl ⟨i, rest, by simp [commandTaken, h, hd, Except.toOption], hc⟩
    · exact .inr (.inl ⟨got, e, .inr rfl, hd, by simp [commandTaken, h, hd, Except.toOption], hc⟩)
  | loading addr i left =>
    rw [h] at hp
    exact .inr (.inr (.inr (.inr (.inl ⟨addr, i, left, rfl, advance_loading hp⟩))))
  | draining addr i left =>
    rw [h] at hp
    exact .inr (.inr (.inr (.inr (.inr (.inl ⟨addr, i, left, rfl, advance_draining hp⟩)))))
  | stepping =>
    rw [h] at hp
    exact .inr (.inr (.inr (.inr (.inr (.inr (.inl ⟨rfl, .inl hp, advance_stepping hp⟩))))))
  | responding bs =>
    rw [h] at hp
    exact .inr (.inr (.inr (.inr (.inr (.inr (.inr (.inl ⟨bs, rfl, advance_responding hp⟩)))))))
  | notifying bs a r b =>
    rw [h] at hp
    exact .inr (.inr (.inr (.inr (.inr (.inr (.inr (.inr ⟨bs, a, r, b, rfl, advance_notifying hp⟩)))))))

/-- A run of one step more is the step and then the run. -/
theorem runSteps_succ {s t : State} (k : Nat) (h : step s = .next t) : runSteps (k + 1) s = runSteps k t := by
  have hc : Sys2Proof.core.step s = .next t := h
  unfold runSteps
  simp only [Host.Core.run, hc]
  rfl

/-- What the end of a finite run says of the state. -/
theorem atRunEnd_iff (left : Nat) (s : State) :
    atRunEnd left s = true ↔
      (∀ h ∈ s.hostIn, h.sends = []) ∧ s.rxq = [] ∧ s.phase = .atLoop ∧ (s.run = .halted ∨ left = 0) := by
  simp [atRunEnd, and_assoc]

/-- A finite run from one of its ends is over. -/
theorem finiteRun_end {s : State} (fuel left : Nat) (h : atRunEnd left s = true) : finiteRun fuel left s = some s := by
  cases fuel <;> simp [finiteRun, h]

/-- A finite run from any other state goes on with the step, a responder invocation being counted. -/
theorem finiteRun_step {s t : State} (fuel left : Nat) (h : atRunEnd left s = false) (hs : step s = .next t) :
    finiteRun (fuel + 1) left s = finiteRun fuel (if servesCycle s then left - 1 else left) t := by
  rw [finiteRun, h, hs]
  rfl

/-- What a finite run can answer: a state that steps reach, at which the run ends. -/
theorem finiteRun_spec (fuel left : Nat) (s u : State) (h : finiteRun fuel left s = some u) :
    ∃ k l, k ≤ fuel ∧ l ≤ left ∧ runSteps k s = .next u ∧ atRunEnd l u = true := by
  induction fuel generalizing left s with
  | zero =>
    rw [finiteRun] at h
    split at h
    · next he => cases h; exact ⟨0, left, Nat.le_refl _, Nat.le_refl _, rfl, he⟩
    · cases h
  | succ n ih =>
    rw [finiteRun] at h
    split at h
    · next he => cases h; exact ⟨0, left, Nat.zero_le _, Nat.le_refl _, rfl, he⟩
    · split at h
      · next t ht =>
        obtain ⟨k, l, hk, hl, hr, he⟩ := ih _ t h
        refine ⟨k + 1, l, by omega, ?_, (runSteps_succ k ht).trans hr, he⟩
        split at hl <;> omega
      · cases h
      · cases h

end Sys2Proof.Machine
end

