-- ==== Sys2Proof/Tests/Slice0.lean ====
section
/-! SUPPORT. The model's own tests, their expected results taken from spec/95_test_vectors.md, and for each statement with
hypotheses a state and operands that meet them. -/

namespace Sys2Proof.Tests

open Sys2Proof.Machine

/-- Whether an outcome is a next state with a given property. -/
def nextIs (o : Host.Outcome State Fault Refusal) (p : State → Bool) : Bool :=
  match o with
  | .next t => p t
  | .fault _ => false
  | .refused _ => false

/-- A small Running state: a few cells, one breakpoint at 0x0100, a channel that accepts every byte, and one quiet host turn. -/
def small : State :=
  { State.reset with mem := [(0x10, 0x42), (0x100, 0x33), (0xFFF, 0x11)], bps := [0x0100], hostIn := [HostTurn.quiet] }

/-- The same, Halted. -/
def halted : State := { small with run := .halted }

/-- The same with bytes in the receive queue. -/
def withBytes (bs : List Byte) (s : State) : State := { s with rxq := bs }

/-- A CPU answer. -/
def cycle (addr : Addr) (rnw sync : Bool) (data : Byte) : BusLines :=
  { sample := { addr := addr, rnw := rnw, sync := sync }, data := data, syncAfter := sync }

/-- The same state with the next answer of the CPU. -/
def withCycle (c : BusLines) (s : State) : State := { s with cpuIn := [c] }

/-! ## Well-formedness: each of the nine codes is refused as an unknown code (R57, R64) -/

theorem smoke_unknown_refuses_codes :
    ∀ c ∈ [0x52#8, 0x48#8, 0x43#8, 0x53#8, 0x57#8, 0x4D#8, 0x4C#8, 0x42#8, 0x47#8], (Instr.unknown c).WellFormed = false := by
  decide

theorem smoke_unknown_takes_others : ∀ c ∈ [0x00#8, 0x0A#8, 0x72#8, 0xFF#8], (Instr.unknown c).WellFormed = true := by decide

/-! ## Decoding: a word for every constructor (R55, R57, R60, R73; vectors D1v to D6v, Q5, Q6) -/

theorem decode_reset : decodeCommand [0x52] = .ok (.reset, []) := by decide
theorem decode_halt : decodeCommand [0x48] = .ok (.halt, []) := by decide
theorem decode_cont : decodeCommand [0x43] = .ok (.cont, []) := by decide
theorem decode_stepOne : decodeCommand [0x53, 0x53] = .ok (.stepOne, [0x53]) := by decide
theorem decode_write : decodeCommand [0x57, 0x12, 0x34, 0x56] = .ok (.write 0x1234 0x56, []) := by decide
theorem decode_read : decodeCommand [0x4D, 0x00, 0xFF] = .ok (.read 255, []) := by decide
theorem decode_load :
    decodeCommand [0x4C, 0x01, 0x00, 0x00, 0x02, 0x57, 0x52] = .ok (.load 0x0100 2, [0x57, 0x52]) := by decide
theorem decode_load_size : decodeCommand [0x4C, 0x00, 0x00, 0x01, 0x00] = .ok (.load 0 256, []) := by decide
theorem decode_setBreakpoint : decodeCommand [0x42, 0x00, 0x00] = .ok (.setBreakpoint 0, []) := by decide
theorem decode_getRegisters : decodeCommand [0x47, 0x43] = .ok (.getRegisters, [0x43]) := by decide
theorem decode_unknown : decodeCommand [0x72] = .ok (.unknown 0x72, []) := by decide
theorem decode_unknown_zero : decodeCommand [0x00, 0xFF] = .ok (.unknown 0x00, [0xFF]) := by decide
theorem decode_busBpHit :
    decode (.busCycle true { addr := 0x0100, rnw := false, sync := true }) = .ok (.busBpHit 0x0100 false, []) := by decide
theorem decode_busRead :
    decode (.busCycle false { addr := 0x0010, rnw := true, sync := false }) = .ok (.busRead 0x0010, []) := by decide
theorem decode_busWrite :
    decode (.busCycle false { addr := 0x0020, rnw := false, sync := false }) = .ok (.busWrite 0x0020, []) := by decide
theorem decode_waits : decodeCommand [0x4D, 0x00] = .error (.argumentMissing 0x4D 1) := by decide

/-- The first byte of every row as spec/opcode_table.json gives it, operand bytes zero. -/
theorem decode_table_commands :
    [0x52, 0x48, 0x43, 0x53, 0x57, 0x4D, 0x4C, 0x42, 0x47, 0x0A].map (decodeTableWord 8) =
      [some .reset, some .halt, some .cont, some .stepOne, some (.write 0 0), some (.read 0), some (.load 0 0),
       some (.setBreakpoint 0), some .getRegisters, some (.unknown 0x0A)] := by decide

/-- The three rows of format BUS: hit in bit 1, rnw in bit 0 (R73). -/
theorem decode_table_bus :
    [0b00, 0b01, 0b10, 0b11].map (decodeTableWord 2) =
      [some (.busWrite 0), some (.busRead 0), some (.busBpHit 0 false), some (.busBpHit 0 true)] := by decide

/-- Later bytes of a command lie above the first: byte 1 in bits 15..8 and so on. -/
theorem decode_table_operands : decodeTableWord 32 0x56341257 = some (.write 0x1234 0x56) := by decide

/-! ## Primitives (vectors T1.1 to T1.9, T2.1 to T2.7, section 2.11) -/

theorem store_read_last : memRead 0x0FFF small = (0x11, true) := by decide
theorem store_read_first_invalid : memRead 0x1000 small = (0xFF, false) := by decide
theorem store_write_keeps_neighbour :
    ((memWrite 0x0011 0x43 small).1.mem.read 0x10, (memWrite 0x0011 0x43 small).1.mem.read 0x11) = (0x42, 0x43) := by decide
theorem store_write_zero_unlists : (memWrite 0x0010 0 small).1.mem = [(0x100, 0x33), (0xFFF, 0x11)] := by decide
theorem store_write_invalid_no_alias : (memWrite 0x1000 0x12 small).1.mem = small.mem := by decide
theorem table_compares_all_bits :
    (bpContains 0x0100 small, bpContains 0x0101 small, bpContains 0x0001 small) = (true, false, false) := by decide
theorem table_add_duplicate : (bpAdd 0x0100 small).1.bps = [0x0100, 0x0100] := by decide
theorem table_capacity_zero : (bpAdd 0 { small with cfg := { small.cfg with bpCapacity := 0 } }).2 = false := by decide
theorem checksum_vectors :
    [[], [0xA5], [0x12, 0x34, 0x56], [0xFF, 0xFF], [0xDE, 0xAD, 0xBE, 0xEF]].map checksum =
      [0x00, 0xA5, 0x70, 0x00, 0x22] := by decide
theorem reset_memory_wf : State.reset.mem.wf := by decide

/-! ## One step each (vectors K1 to K8, M1 to M11, Q1 to Q8, B1 to B9, S1, L1v to L5v) -/

theorem test_reset_pulses :
    nextIs (exec .reset halted) (fun t => t.run == .running && t.rstn && t.trace.take 2 == [.resetLow, .resetHigh] &&
      t.bps == [0x0100]) = true := by decide
theorem test_halt_halts : nextIs (step (withBytes [0x48] small)) (fun t => t.run == .halted && t.rxq == []) = true := by decide
theorem test_cont_runs : nextIs (step (withBytes [0x43] halted)) (fun t => t.run == .running && t.mem == small.mem) = true := by
  decide
theorem test_stepOne_halts_first :
    nextIs (step (withBytes [0x53] small)) (fun t => t.run == .halted && t.phase == .stepping) = true := by decide
theorem test_step_rise :
    nextIs (step (withCycle (cycle 0x10 true true 0) { halted with phase := .stepping }))
      (fun t => t.stepState == .awaitSyncFall && t.phase == .stepping &&
        t.trace == [.clkAssert, .clkDeassert, .drive 0x42, .release]) = true := by decide
theorem test_write_last_valid :
    nextIs (step (withBytes [0x57, 0x0F, 0xFF, 0x7E] small)) (fun t => t.mem.read 0xFFF == 0x7E && t.rxq == []) = true := by
  decide
theorem test_write_invalid :
    nextIs (step (withBytes [0x57, 0x10, 0x00, 0x7E] small)) (fun t => t.mem == small.mem && t.rxq == []) = true := by decide
theorem test_read_raw : nextIs (step (withBytes [0x4D, 0x00, 0x10] small)) (fun t => t.txq == [0x42]) = true := by decide
theorem test_read_invalid_sends_text :
    exec (.read 0xFFFF) small = .next (respond (.invalidAddress 0xFFFF) small) := rfl
theorem test_load_runs_off :
    nextIs (step (withBytes [0x4C, 0x0F, 0xFE, 0x00, 0x04, 0x11, 0x22, 0x52, 0x43] halted))
      (fun t => t.mem.read 0xFFE == 0x11 && t.mem.read 0xFFF == 0x22 && t.rxq == [0x43] && t.rstn && t.run == .halted) = true := by
  decide
theorem test_load_wraps :
    nextIs (exec (.load 0xFFFF 2) (withBytes [0xAA, 0xBB] { small with cfg := { small.cfg with memSize := 65536 } }))
      (fun t => t.mem.read 0xFFFF == 0xAA && t.mem.read 0 == 0xBB) = true := by decide
theorem test_setBreakpoint_outside_memory :
    nextIs (step (withBytes [0x42, 0xFF, 0xFF] small)) (fun t => t.bps == [0x0100, 0xFFFF]) = true := by decide
theorem test_setBreakpoint_full :
    nextIs (exec (.setBreakpoint 0x0200) { small with bps := List.replicate 10 0x10 }) (fun t => t.bps.length == 10) = true := by
  decide
theorem test_getRegisters_takes_one_byte :
    nextIs (step (withBytes [0x47, 0x43] halted)) (fun t => t.rxq == [0x43] && t.run == .halted) = true := by decide
theorem test_unknown_lower_case :
    nextIs (step (withBytes [0x72] halted)) (fun t => t.rxq == [] && t.rstn && t.run == .halted) = true := by decide
theorem test_busRead_valid :
    nextIs (step (withCycle (cycle 0x10 true false 0) small)) (fun t => t.trace == [.drive 0x42, .release] && !t.doe) = true := by
  decide
theorem test_busRead_invalid :
    nextIs (step (withCycle (cycle 0x2000 true false 0) small)) (fun t => t.trace == [.drive 0xFF, .release]) = true := by decide
theorem test_busWrite_valid :
    nextIs (step (withCycle (cycle 0x20 false false 0x99) small))
      (fun t => t.mem.read 0x20 == 0x99 && t.trace == [.release]) = true := by decide
theorem test_busWrite_invalid :
    nextIs (step (withCycle (cycle 0x2000 false false 0x55) small)) (fun t => t.mem == small.mem && t.txq == []) = true := by
  decide
theorem test_busBpHit_write_superseded :
    nextIs (step (withCycle (cycle 0x0100 false false 0x77) small))
      (fun t => t.run == .halted && t.mem.read 0x100 == 0x33 && t.bps == [0x0100]) = true := by decide
theorem test_busBpHit_write_commits :
    nextIs (step (withCycle (cycle 0x0100 false false 0x77) { small with cfg := { small.cfg with bpHitCommitsWrite := true } }))
      (fun t => t.run == .halted && t.mem.read 0x100 == 0x77) = true := by decide
theorem test_halted_idles : nextIs (step halted) (fun t => t.trace == [] && t.run == .halted) = true := by decide
theorem test_argument_missing_waits :
    nextIs (step (withBytes [0x4D, 0x00] halted)) (fun t => t.phase == .receiving [0x4D, 0x00] && t.rxq == []) = true := by decide
theorem test_argument_arrives :
    nextIs (step (withBytes [0x10] { halted with phase := .receiving [0x4D, 0x00] })) (fun t => t.txq == [0x42]) = true := by decide

/-- The end of a run: Halted it is there at once; Running only when no responder invocation is left to count (R156). -/
theorem test_run_end :
    finiteRun 0 3 halted = some halted ∧ finiteRun 0 0 small = some small ∧ finiteRun 0 1 small = none ∧
    finiteRun 0 0 (withBytes [0x48] halted) = none := by decide

/-! ## Witnesses: the hypotheses of each statement are met together, each clause at a boundary where it has one -/

/-- The channel with room for `n` bytes only. -/
def withRoom (n : Nat) (s : State) : State := { s with txRoom := some n }

/-- A Halted state inside a Step, with two scripted answers and as many quiet turns: SYNC asserted, then deasserted. -/
def insideStep (cs : List BusLines) : State :=
  { halted with phase := .stepping, cpuIn := cs, hostIn := cs.map fun _ => HostTurn.quiet }

theorem witness_DecodeInvertsEncode :
    (Instr.unknown 0x51).WellFormed = true ∧
    ((Instr.load 0xFFFF 0xFFFF).WellFormed = true ∧
      encode false (.load 0xFFFF 0xFFFF) = .command [0x4C, 0xFF, 0xFF, 0xFF, 0xFF]) ∧
    (List.replicate 65535 (0 : Byte)).length < 65536 := ⟨by decide, by decide, by rw [List.length_replicate]; decide⟩

theorem witness_DecodedCommandEncodesBack : decodeCommand [0x42, 0x12, 0x34, 0x47] = .ok (.setBreakpoint 0x1234, [0x47]) := by
  decide

theorem witness_SampleSelectsOperation :
    ∃ b c : BusSample, b.rnw = true ∧ c.rnw = false := ⟨⟨0, true, true⟩, ⟨0xFFFF, false, false⟩, by decide⟩

theorem witness_StoreReadAnswersByteOrSentinel :
    (0x0FFF#16).toNat < small.cfg.memSize ∧ small.cfg.memSize ≤ (0x1000#16).toNat ∧
    ({ small with cfg := { small.cfg with memSize := 65536 } } : State).cfg.memSize = 65536 := by decide

theorem witness_StoreWriteSetsOneCell :
    small.mem.wf ∧ (0x0FFF#16).toNat < small.cfg.memSize ∧ small.cfg.memSize ≤ (0x1000#16).toNat := by decide

theorem witness_StoreSequenceLaws :
    small.mem.wf ∧ (0x0FFF#16).toNat < small.cfg.memSize ∧ small.cfg.memSize ≤ (0x1000#16).toNat ∧
    0x0FFF#16 ≠ 0x1000#16 := by decide

theorem witness_CanonicalMemoriesAreExtensional :
    ∃ m n : Memory, m = (Memory.write [] 1 2).write 3 4 ∧ n = (Memory.write [] 3 4).write 1 2 ∧ m.wf ∧ n.wf ∧
      ∀ a, m.read a = n.read a := ⟨_, _, rfl, rfl, by decide, by decide, fun _ => rfl⟩

theorem witness_TableAcceptsExactlyCapacity :
    State.reset.bps = [] ∧ ∃ t, step (withBytes [0x48] small) = .next t ∧ bpContains 0x0100 (withBytes [0x48] small) = true :=
  ⟨rfl, _, rfl, by decide⟩

theorem witness_BusReadDrivesThenReleases :
    (0x0FFF#16).toNat < small.cfg.memSize ∧ ¬ (0x1000#16).toNat < small.cfg.memSize := by decide

theorem witness_BusWriteStoresSampledByte :
    small.mem.wf ∧ (0x0FFF#16).toNat < small.cfg.memSize ∧ small.cfg.memSize ≤ (0x1000#16).toNat := by decide

theorem witness_BusHitHaltsAndNotifies :
    small.txRoom = none ∧
    (let n := (textBytes (.breakpointReached 0x0100)).length
     (withRoom n small).txRoom = some n ∧ (textBytes (.breakpointReached 0x0100)).length ≤ n) ∧
    (let n := (textBytes (.breakpointReached 0x0100)).length - 1
     (withRoom n small).txRoom = some n ∧ n < (textBytes (.breakpointReached 0x0100)).length) :=
  ⟨rfl, ⟨rfl, Nat.le_refl _⟩, rfl, Nat.sub_lt (List.length_pos_of_ne_nil (textBytes_ne_nil _)) Nat.one_pos⟩

theorem witness_DelayedNotificationEndsAlike :
    (∃ w, (withRoom 0 small).phase = .atLoop ∧ (withRoom 0 small).txRoom = some 0 ∧
      exec (.busBpHit 0x0100 true) (withRoom 0 small) = .next w ∧ w.phase ≠ .atLoop) ∧
    (∃ w u, (withRoom 0 (insideStep [])).phase = .stepping ∧ (withRoom 0 (insideStep [])).txRoom = some 0 ∧
      exec (.busBpHit 0x0100 true) (withRoom 0 (insideStep [])) = .next w ∧ w.phase ≠ .stepping ∧
      exec (.busBpHit 0x0100 true) { withRoom 0 (insideStep []) with txRoom := none } = .next u) := by
  refine ⟨⟨_, rfl, rfl, rfl, ?_⟩, _, _, rfl, rfl, rfl, ?_, rfl⟩
  · rw [debugStop_waits 0x0100 true (s := withRoom 0 small) (n := 0) rfl
      (List.length_pos_of_ne_nil (textBytes_ne_nil _))]
    exact Phase.noConfusion
  · rw [debugStop_waits 0x0100 true (s := withRoom 0 (insideStep [])) (n := 0) rfl
      (List.length_pos_of_ne_nil (textBytes_ne_nil _))]
    exact Phase.noConfusion

theorem witness_ResponderInvocationOrder :
    (∃ c, (withCycle c small).cpuIn = c :: [] ∧ c.sample.addr ∈ (withCycle c small).bps) ∧
    (∃ c, (withCycle c small).cpuIn = c :: [] ∧ c.sample.addr ∉ (withCycle c small).bps ∧ c.sample.rnw = true) ∧
    (∃ c, (withCycle c small).cpuIn = c :: [] ∧ c.sample.addr ∉ (withCycle c small).bps ∧ c.sample.rnw = false) ∧
    (small.phase = .atLoop ∧ (pollHost small).rxq = [] ∧ small.run = .running) ∧
    (insideStep []).phase = .stepping ∧ ∃ t, busCycle (withCycle (cycle 0x0100 true true 0) small) = .next t :=
  ⟨⟨cycle 0x0100 true true 0, by decide⟩, ⟨cycle 0x0101 true true 0, by decide⟩, ⟨cycle 0x00FF false true 0, by decide⟩,
   by decide, rfl, _, rfl⟩

theorem witness_ResponderNeverDrivesAgainstTheCpu :
    ∃ s t : State, s.doe = false ∧ busCycle s = .next t ∧
      ((presentCycle s).lines.sample.rnw = false ∧ (presentCycle s).lines.sample.addr ∈ s.bps) :=
  ⟨withCycle (cycle 0x0100 false true 0) small, _, rfl, rfl, by decide⟩

theorem witness_ResponderIgnoresSync : ∃ t, serveCycle (cycle 0x10 true true 0) small = .next t := ⟨_, rfl⟩

/-- A Running state whose CPU presents one write twice and then a breakpoint address, with as many quiet host turns. -/
def sampledTwice : State :=
  { small with cpuIn := [cycle 0x20 false false 0x99, cycle 0x20 false false 0x99, cycle 0x0100 true false 0],
               hostIn := [HostTurn.quiet, HostTurn.quiet, HostTurn.quiet] }

theorem witness_RepeatedSamplingLeavesMemoryAlike :
    let c := cycle 0x20 false false 0x99
    let d := cycle 0x0100 true false 0
    ∃ t u, sampledTwice.mem.wf ∧ sampledTwice.txRoom = none ∧ BusKeptUp [c, d] [c, c, d] ∧
      serveAll [c, d] sampledTwice = .next t ∧ serveAll [c, c, d] sampledTwice = .next u ∧ sampledTwice.phase = .atLoop ∧
      sampledTwice.run = .running ∧ sampledTwice.rxq = [] ∧ sampledTwice.cpuIn = [c, c, d] ++ [] ∧
      (∀ h ∈ sampledTwice.hostIn, h.sends = [] ∧ h.room = none) ∧ [c, c, d].length ≤ sampledTwice.hostIn.length ∧
      ∀ e ∈ [c, c, d].dropLast, e.sample.addr ∉ sampledTwice.bps :=
  ⟨_, _, by decide, rfl, .again _ _ _ (.once _ _ _ (.once _ _ _ .done)), rfl, rfl, rfl, rfl, rfl, rfl, by decide,
   by decide, by decide⟩

theorem witness_ResponseIsSentAsTheChannelAccepts :
    small.txRoom = none ∧ ((withRoom 2 small).txRoom = some 2 ∧ [0x41#8, 0x42#8].length ≤ 2) ∧
    ((withRoom 1 small).txRoom = some 1 ∧ 1 < [0x41#8, 0x42#8].length) := by decide

theorem witness_DelayedResponseEndsAlike : (sendResponse [0x41, 0x42] (withRoom 1 small)).phase ≠ .atLoop := by decide

theorem witness_ResetCommandPulsesAndRuns :
    (withBytes [0x52] halted).phase = .atLoop ∧ (pollHost (withBytes [0x52] halted)).rxq = [0x52] := by decide

theorem witness_ResetCommandKeepsBlockState : ∃ t, step (withBytes [0x52] small) = .next t := ⟨_, rfl⟩

theorem witness_HaltCommandStopsService :
    (∃ t, exec .halt small = .next t) ∧
    ((withBytes [0x48] small).phase = .atLoop ∧ (pollHost (withBytes [0x48] small)).rxq = [0x48]) ∧
    (halted.phase = .atLoop ∧ halted.run = .halted ∧ (pollHost halted).rxq = []) := ⟨⟨_, rfl⟩, by decide, by decide⟩

theorem witness_ContinueCommandResumesService :
    ((withBytes [0x43] halted).phase = .atLoop ∧ (pollHost (withBytes [0x43] halted)).rxq = [0x43]) ∧
    (small.phase = .atLoop ∧ small.run = .running ∧ (pollHost small).rxq = []) := by decide

theorem witness_StepCommandEntersTheLoop :
    (withBytes [0x53] small).phase = .atLoop ∧ (pollHost (withBytes [0x53] small)).rxq = [0x53] := by decide

theorem witness_RunControlIgnoresRunState : Instr.stepOne ∈ [Instr.reset, Instr.halt, Instr.cont, Instr.stepOne] := by decide

theorem witness_StepIterationOrder :
    (insideStep [cycle 0x10 true true 0]).phase = .stepping ∧
    (∀ st ∈ [StepState.awaitSyncRise, StepState.awaitSyncFall], ∀ sync ∈ [false, true], ∃ s : State,
      s.stepState = st ∧ s.lines.syncAfter = sync) :=
  ⟨rfl, fun st _ sync _ => ⟨{ small with stepState := st, lines := cycle 0 true sync 0 }, rfl, rfl⟩⟩

theorem witness_StepRunsToItsEnd :
    let z := cycle 0x10 true false 0
    let o := cycle 0x11 true true 0
    let l := cycle 0x0100 true false 0
    let s := insideStep ([z] ++ [o] ++ [l])
    s.phase = .stepping ∧ s.run = .halted ∧ s.stepState = .awaitSyncRise ∧ (∀ c ∈ [z], c.syncAfter = false) ∧ [o] ≠ [] ∧
    (∀ c ∈ [o], c.syncAfter = true) ∧ l.syncAfter = false ∧ s.cpuIn = [z] ++ [o] ++ [l] ++ [] ∧
    s.hostIn = List.replicate 3 HostTurn.quiet ++ [] ∧
    (List.replicate 3 HostTurn.quiet).length = ([z] ++ [o] ++ [l]).length ∧
    ∀ h ∈ List.replicate 3 HostTurn.quiet, h.room = none := by decide

theorem witness_StepWithoutSyncFallNeverEnds :
    let z := cycle 0x10 true false 0
    let o := cycle 0x0100 true true 0
    let s := insideStep [z, o, o]
    s.phase = .stepping ∧ s.run = .halted ∧ s.stepState = .awaitSyncRise ∧
    [z, o, o].Pairwise (fun c d => c.syncAfter = true → d.syncAfter = true) ∧ s.cpuIn = [z, o, o] ++ [] ∧
    s.hostIn = List.replicate 3 HostTurn.quiet ++ [] ∧ (List.replicate 3 HostTurn.quiet).length = [z, o, o].length ∧
    ∀ h ∈ List.replicate 3 HostTurn.quiet, h.room = none := by decide

theorem witness_StepServesNothingElse :
    (insideStep [cycle 0x10 true true 0]).phase.inStep = true ∧ ∃ t, step (insideStep [cycle 0x10 true true 0]) = .next t :=
  ⟨rfl, _, rfl⟩

theorem witness_WriteCommandStoresAndAnswers :
    small.mem.wf ∧ (0x0FFF#16).toNat < small.cfg.memSize ∧ small.cfg.memSize ≤ (0x1000#16).toNat ∧
    ((withBytes [0x57, u16High 0x0FFF, u16Low 0x0FFF, 0x7E] small).phase = .atLoop ∧
      (pollHost (withBytes [0x57, u16High 0x0FFF, u16Low 0x0FFF, 0x7E] small)).rxq =
        [0x57, u16High 0x0FFF, u16Low 0x0FFF, 0x7E] ++ []) ∧
    ∃ (t : State) (c : BusLines), exec (.write 0x0FFF 0x7E) small = .next t ∧ (0x0FFF : Addr) ∉ small.bps ∧
      c.sample.addr = 0x0FFF ∧ c.sample.rnw = true :=
  ⟨by decide, by decide, by decide, by decide, _, cycle 0x0FFF true false 0, rfl, by decide, rfl, rfl⟩

theorem witness_ReadCommandAnswersOneByte :
    (0x0FFF#16).toNat < small.cfg.memSize ∧ small.cfg.memSize ≤ (0x1000#16).toNat ∧
    ((withBytes [0x4D, u16High 0x0FFF, u16Low 0x0FFF] small).phase = .atLoop ∧
      (pollHost (withBytes [0x4D, u16High 0x0FFF, u16Low 0x0FFF] small)).rxq =
        [0x4D, u16High 0x0FFF, u16Low 0x0FFF] ++ []) := by decide

/-- `small` with `LOAD_ABORT_DRAINS` = true. -/
def draining : State := { small with cfg := { small.cfg with loadAbortDrains := true } }

/-- `small` with a store of 65536 bytes. -/
def full : State := { small with cfg := { small.cfg with memSize := 65536 } }

theorem witness_LoadCommandWritesInOrder :
    small.mem.wf ∧
    (∃ (s : State) (data rest : List Byte), s.mem.wf ∧ s.rxq = data ++ rest ∧ data.length = (2#16).toNat ∧
      ∀ i, i < (2#16).toNat → (loadAddress 0x0FFE i).toNat < s.cfg.memSize) ∧
    (∃ (s : State) (i : Nat) (data rest : List Byte), s.mem.wf ∧ i < (3#16).toNat ∧
      (∀ j, j < i → (loadAddress 0x0FFF j).toNat < s.cfg.memSize) ∧ s.cfg.memSize ≤ (loadAddress 0x0FFF i).toNat ∧
      s.cfg.loadAbortDrains = false ∧ s.rxq = data ++ rest ∧ data.length = i + 1) ∧
    (∃ (s : State) (i : Nat) (data rest : List Byte), s.mem.wf ∧ i < (3#16).toNat ∧
      (∀ j, j < i → (loadAddress 0x0FFF j).toNat < s.cfg.memSize) ∧ s.cfg.memSize ≤ (loadAddress 0x0FFF i).toNat ∧
      s.cfg.loadAbortDrains = true ∧ s.rxq = data ++ rest ∧ data.length = (3#16).toNat) ∧
    (∃ (s : State) (i : Nat) (data : List Byte), s.mem.wf ∧ i < (3#16).toNat ∧
      (∀ j, j < i → (loadAddress 0x0FFF j).toNat < s.cfg.memSize) ∧ s.cfg.memSize ≤ (loadAddress 0x0FFF i).toNat ∧
      s.cfg.loadAbortDrains = true ∧ s.rxq = data ∧ i < data.length ∧ data.length < (3#16).toNat) ∧
    (∃ (s : State) (data : List Byte), s.mem.wf ∧ s.rxq = data ∧ data.length < (3#16).toNat ∧
      ∀ i, i < data.length → (loadAddress 0x0FFE i).toNat < s.cfg.memSize) :=
  ⟨by decide, ⟨withBytes [0x11, 0x22, 0x43] small, [0x11, 0x22], [0x43], by decide⟩,
   ⟨withBytes [0xAA, 0xBB, 0xCC] small, 1, [0xAA, 0xBB], [0xCC], by decide⟩,
   ⟨withBytes [0xAA, 0xBB, 0xCC] draining, 1, [0xAA, 0xBB, 0xCC], [], by decide⟩,
   ⟨withBytes [0xAA, 0xBB] draining, 1, [0xAA, 0xBB], by decide⟩,
   ⟨withBytes [0xAA, 0xBB] small, [0xAA, 0xBB], by decide⟩⟩

/-- The premises that all clauses of LoadCornerCases share. -/
abbrev cornerPremises (s : State) (data rest : List Byte) : Prop :=
  s.mem.wf ∧ s.cfg.Legal ∧ s.cfg.loadAbortDrains = false ∧ s.txRoom = none ∧ s.rxq = data ++ rest

theorem witness_LoadCornerCases :
    (cornerPremises (withBytes [0x48] small) [] [0x48] ∧ (0#16).toNat = 0) ∧
    (cornerPremises (withBytes [0xAA] small) [0xAA] [] ∧ small.cfg.memSize ≤ (0x1000#16).toNat ∧ 1 ≤ (1#16).toNat) ∧
    (cornerPremises (withBytes [0xAA] small) [0xAA] [] ∧ (0x0FFF#16).toNat < small.cfg.memSize ∧
      (0x0FFF#16).toNat + (1#16).toNat ≤ small.cfg.memSize ∧ [0xAA#8].length = (1#16).toNat) ∧
    (cornerPremises (withBytes [0xAA, 0xBB, 0xCC] small) [0xAA, 0xBB] [0xCC] ∧ (0x0FFF#16).toNat < small.cfg.memSize ∧
      small.cfg.memSize < (0x0FFF#16).toNat + (2#16).toNat ∧ small.cfg.memSize < 65536 ∧
      [0xAA#8, 0xBB#8].length = small.cfg.memSize - (0x0FFF#16).toNat + 1) ∧
    (cornerPremises (withBytes [0xAA, 0xBB] full) [0xAA, 0xBB] [] ∧ full.cfg.memSize = 65536 ∧
      [0xAA#8, 0xBB#8].length = (2#16).toNat) ∧
    (cornerPremises (withBytes [0xAA] small) [0xAA] [] ∧ [0xAA#8].length < (2#16).toNat ∧
      (0x0FFF#16).toNat + [0xAA#8].length ≤ small.cfg.memSize) ∧
    ((withBytes [0x4C, u16High 0x0FFF, u16Low 0x0FFF, u16High 1, u16Low 1, 0xAA] small).phase = .atLoop ∧
      (pollHost (withBytes [0x4C, u16High 0x0FFF, u16Low 0x0FFF, u16High 1, u16Low 1, 0xAA] small)).rxq =
        [0x4C, u16High 0x0FFF, u16Low 0x0FFF, u16High 1, u16Low 1] ++ [0xAA]) := by
  refine ⟨?_, ?_, ?_, ?_, ?_, ?_, ?_⟩ <;> decide

theorem witness_LoadContinuesWhereItWaited :
    (∃ u, loadBytes 0x0FFF 2 0 (withBytes [0xAA] small) = u ∧ (withBytes [0xAA] small).phase = .atLoop ∧
      u.phase = .loading 0x0FFF 1 1) ∧
    (∃ u, drainLoad 0x1000 0 2 (withBytes [0xAA] draining) = u ∧ (withBytes [0xAA] draining).phase = .atLoop ∧
      u.phase = .draining 0x1000 0 1) := ⟨⟨_, rfl, by decide⟩, ⟨_, rfl, by decide⟩⟩

theorem witness_QueuedLoadFillsTheStore :
    let s := withBytes (encodeLoad 0x0FFC [0xDE, 0xAD, 0xBE, 0xEF] ++ [0x48]) small
    s.mem.wf ∧ [0xDE#8, 0xAD#8, 0xBE#8, 0xEF#8].length < 65536 ∧ s.phase = .atLoop ∧
    (pollHost s).rxq = encodeLoad 0x0FFC [0xDE, 0xAD, 0xBE, 0xEF] ++ [0x48] ∧ (pollHost s).txRoom = none ∧
    (0x0FFC#16).toNat + [0xDE#8, 0xAD#8, 0xBE#8, 0xEF#8].length ≤ s.cfg.memSize ∧ s.cfg.memSize ≤ 65536 := by decide

theorem witness_HostAndBusSeeOneStore :
    small.mem.wf ∧ (0x0FFF#16).toNat < small.cfg.memSize ∧
    (∃ (t : State) (c : BusLines), exec (.write 0x0FFF 0x7E) small = .next t ∧ (0x0FFF : Addr) ∉ small.bps ∧
      c.sample.addr = 0x0FFF ∧ c.sample.rnw = true) ∧
    ∃ t, exec (.busWrite 0x0FFF) small = .next t :=
  ⟨by decide, by decide, ⟨_, cycle 0x0FFF true false 0, rfl, by decide, rfl, rfl⟩, _, rfl⟩

theorem witness_SetBreakpointAppends :
    bpCount { small with bps := List.replicate 9 0 } < small.cfg.bpCapacity ∧
    bpCount { small with bps := List.replicate 10 0 } = small.cfg.bpCapacity ∧
    ((withBytes [0x42, u16High 0xFFFF, u16Low 0xFFFF] small).phase = .atLoop ∧
      (pollHost (withBytes [0x42, u16High 0xFFFF, u16Low 0xFFFF] small)).rxq = [0x42, u16High 0xFFFF, u16Low 0xFFFF] ++ []) := by
  decide

theorem witness_GetRegistersIsUnsupported :
    (withBytes [0x47, 0x43] halted).phase = .atLoop ∧ (pollHost (withBytes [0x47, 0x43] halted)).rxq = 0x47 :: [0x43] := by
  decide

theorem witness_UnknownCodeIsReported :
    0x00#8 ∉ commandCodes ∧ (withBytes [0x00, 0xFF] halted).phase = .atLoop ∧
    (pollHost (withBytes [0x00, 0xFF] halted)).rxq = 0x00 :: [0xFF] := by decide

theorem witness_StepRunsDecodedInstruction :
    (small.phase = .atLoop ∧ decodeCommand (pollHost (withBytes [0x48, 0x43] small)).rxq = .ok (.halt, [0x43])) ∧
    (({ small with phase := .receiving [0x4D, 0x00] } : State).phase = .receiving [0x4D, 0x00] ∧
      decodeCommand ([0x4D, 0x00] ++ (pollHost (withBytes [0x10] { small with phase := .receiving [0x4D, 0x00] })).rxq) =
        .ok (.read 0x10, [])) ∧
    (small.phase = .atLoop ∧ (pollHost small).rxq = [] ∧ small.run = .running) := by decide

/-- States that wait for a byte inside a command's arguments, a load and a drain, with one quiet host turn to come. -/
def waitingStates : List State :=
  [{ small with phase := .receiving [0x4D, 0x00] }, { small with phase := .loading 0x0FFF 1 1 },
   { draining with phase := .draining 0x1000 0 1 }]

theorem waitingStates_await : ∀ s ∈ waitingStates, AwaitsByte s ∧ s.hostIn = [HostTurn.quiet] := by
  intro s hs
  simp only [waitingStates, List.mem_cons, List.not_mem_nil, or_false] at hs
  rcases hs with rfl | rfl | rfl
  · exact ⟨⟨rfl, 0x4D, 1, by decide⟩, rfl⟩
  · exact ⟨⟨rfl, Nat.one_pos⟩, rfl⟩
  · exact ⟨⟨rfl, Nat.one_pos⟩, rfl⟩

theorem witness_IdleAndWaitingChangeNothing :
    Quiescent (pollHost halted) ∧ (∀ s ∈ waitingStates, AwaitsByte (pollHost s)) ∧
    (Quiescent halted ∧ halted.hostIn = [HostTurn.quiet] ++ [] ∧ ∀ h ∈ [HostTurn.quiet], h.sends = []) ∧
    (∀ s ∈ waitingStates, AwaitsByte s ∧ s.hostIn = [HostTurn.quiet] ++ [] ∧ 1 ≤ s.hostIn.length) := by
  refine ⟨⟨rfl, rfl, rfl⟩, fun s hs => ?_, ⟨⟨rfl, rfl, rfl⟩, rfl, by decide⟩, fun s hs => ?_⟩
  · obtain ⟨⟨hq, hp⟩, hh⟩ := waitingStates_await s hs
    rw [pollHost_script hh]
    exact ⟨by simp [hq, HostTurn.quiet], hp⟩
  · obtain ⟨ha, hh⟩ := waitingStates_await s hs
    exact ⟨ha, hh, by simp [hh]⟩

theorem witness_IncompleteCommandIsTaken :
    (small.phase = .atLoop ∧
      decodeCommand (pollHost (withBytes [0x57, 0x00, 0x10] small)).rxq = .error (.argumentMissing 0x57 1)) ∧
    (({ small with phase := .receiving [0x57, 0x00], rxq := [0x10] } : State).phase = .receiving [0x57, 0x00] ∧
      decodeCommand ([0x57, 0x00] ++ (pollHost { small with phase := .receiving [0x57, 0x00], rxq := [0x10] }).rxq) =
        .error (.argumentMissing 0x57 1)) ∧
    decodeCommand ([0x57, 0x00, 0x10] ++ [0x42]) = .ok (.write 0x10 0x42, []) := by decide

theorem witness_CommandsAreUninterrupted :
    let s : State := { small with phase := .responding [0x0A] }
    s.phase ≠ .atLoop ∧ (∀ got, s.phase ≠ .receiving got) ∧ s.phase.inStep = false ∧ ∃ t, step s = .next t :=
  ⟨Phase.noConfusion, fun _ => Phase.noConfusion, rfl, _, rfl⟩

/-- A power-on state: an eight-byte store with one listed cell, Running. -/
def powered : State := { State.reset with cfg := { Params.standard with memSize := 8 }, mem := [(7, 0x5A)], dout := 0x81 }

theorem powered_powerOn : PowerOn powered :=
  ⟨by decide, by decide, by decide, rfl, rfl, rfl, rfl, rfl, rfl, rfl, rfl, rfl, rfl⟩

theorem witness_InvariantHoldsAtPowerOn : PowerOn powered := powered_powerOn

/-- The same power-on state, with a host that sends one `H` first. -/
def poweredHost : State := { powered with hostIn := [{ sends := [0x48], room := none }] }

theorem poweredHost_powerOn : PowerOn poweredHost :=
  ⟨by decide, by decide, by decide, rfl, rfl, rfl, rfl, rfl, rfl, rfl, rfl, rfl, rfl⟩

theorem witness_ReachableStatesKeepInvariant : ∃ t, step poweredHost = .next t ∧ t.run = .halted ∧ Reachable t :=
  ⟨_, rfl, rfl, .step poweredHost _ (.powerOn _ poweredHost_powerOn) rfl⟩

theorem small_inv : Inv (withBytes [0x48] small) :=
  ⟨by decide, by decide, by decide, by decide, rfl, rfl, by decide, by decide, True.intro⟩

theorem witness_EveryStepKeepsInvariant : Inv (withBytes [0x48] small) ∧ ∃ t, step (withBytes [0x48] small) = .next t := ⟨small_inv, _, rfl⟩

theorem witness_HistoryOnlyGrows : ∃ t, step (withBytes [0x42, 0x00, 0x10] small) = .next t := ⟨_, rfl⟩

theorem witness_ElementsChangeOnlyByTheirWriters :
    (∃ t, step (withBytes [0x42, 0x00, 0x10] small) = .next t ∧ t.bps ≠ small.bps) ∧
    (∃ t, step (withBytes [0x48] small) = .next t ∧ t.run ≠ small.run) ∧
    (∃ t, step (withCycle (cycle 0x0100 true true 0) small) = .next t ∧ t.run ≠ small.run) ∧
    (∃ t, step (insideStep [cycle 0x10 true true 0]) = .next t ∧ t.stepState ≠ .awaitSyncRise) ∧
    (∃ t, step (withCycle (cycle 0x10 true true 0) small) = .next t ∧ t.dout ≠ small.dout) ∧ small.rstn = true ∧
    (∃ t, step (withBytes [0x52] { small with rstn := false }) = .next t ∧ t.rstn ≠ false) :=
  ⟨⟨_, rfl, by decide⟩, ⟨_, rfl, by decide⟩, ⟨_, rfl, by decide⟩, ⟨_, rfl, by decide⟩, ⟨_, rfl, by decide⟩, rfl,
   ⟨_, rfl, by decide⟩⟩

/-- `small` with `BP_HIT_COMMITS_WRITE` = true. -/
def committing : State := { small with cfg := { small.cfg with bpHitCommitsWrite := true } }

theorem witness_MemoryChangesOnlyByWriteTransactions :
    ∀ sk ∈ [(withCycle (cycle 0x0FFF false false 0x99) small, 0x0FFF), (withCycle (cycle 0x0100 false false 0x99) committing, 0x0100),
      (withBytes [0x57, 0x0F, 0xFF, 0x99] small, 0x0FFF), (withBytes [0x4C, 0x0F, 0xFF, 0x00, 0x01, 0x99] small, 0x0FFF),
      (withBytes [0x99] { small with phase := .loading 0x0FFE 1 1 }, 0x0FFF),
      ({ committing with run := .halted, lines := cycle 0x0100 false false 0x99,
                         phase := .notifying [0x0A] 0x0100 false false }, 0x0100)],
      sk.1.mem.wf ∧ nextIs (step sk.1) (fun t => t.mem.read sk.2 == 0x99) = true ∧ sk.1.mem.read sk.2 ≠ 0x99 := by
  decide

theorem witness_HaltedIsLeftOnlyByContinueOrReset :
    ∃ t, halted.run = .halted ∧ step (withBytes [0x52] halted) = .next t ∧ t.run = .running := ⟨_, rfl, rfl, by decide⟩

theorem witness_HitDoesNotDisarm :
    ∃ (t u : State) (c : BusLines), c.sample.addr ∈ small.bps ∧ serveCycle c small = .next t ∧
      exec .cont t = .next u ∧ c.sample.addr = c.sample.addr :=
  ⟨_, _, cycle 0x0100 true true 0, by decide, rfl, rfl, rfl⟩

end Sys2Proof.Tests
end

/-! ## The encoding: the commands with 16-bit fields (R55, R60), and the selector of bus-cycle operations (R73) -/

namespace Sys2Proof

/-! ### What the decoder answers for the four commands with a 16-bit field -/

/-- `W`: format `FAD`, an address field and a data byte (R55, R57). -/
@[simp] theorem decodeCommand_write (f g d : Byte) (rest : List Byte) :
    decodeCommand (0x57#8 :: f :: g :: d :: rest) = .ok (.write (u16OfBytes f g) d, rest) := by
  simp [decodeCommand, argumentBytes, decodeArguments]

/-- `M`: format `FA`, an address field (R55, R57). -/
@[simp] theorem decodeCommand_read (f g : Byte) (rest : List Byte) :
    decodeCommand (0x4D#8 :: f :: g :: rest) = .ok (.read (u16OfBytes f g), rest) := by
  simp [decodeCommand, argumentBytes, decodeArguments]

/-- `B`: format `FA`, an address field (R55, R57). -/
@[simp] theorem decodeCommand_setBreakpoint (f g : Byte) (rest : List Byte) :
    decodeCommand (0x42#8 :: f :: g :: rest) = .ok (.setBreakpoint (u16OfBytes f g), rest) := by
  simp [decodeCommand, argumentBytes, decodeArguments]

/-- `L`: the fixed part of format `FAS`, an address and a size field; the data bytes are left on the channel (R55, R56). -/
@[simp] theorem decodeCommand_load (f g h k : Byte) (rest : List Byte) :
    decodeCommand (0x4C#8 :: f :: g :: h :: k :: rest) = .ok (.load (u16OfBytes f g) (u16OfBytes h k), rest) := by
  simp [decodeCommand, argumentBytes, decodeArguments]

/-! ### The selector of R73, row by row -/

/-- `hit` = 1: the debug stop, whatever the read/write line says. -/
@[simp] theorem selectOperation_hit (b : BusSample) : selectOperation true b = .busBpHit b.addr b.rnw := rfl

/-- `hit` = 0, `rnw` = 1: the CPU reads. -/
theorem selectOperation_of_rnw {b : BusSample} (h : b.rnw = true) : selectOperation false b = .busRead b.addr := by
  simp [selectOperation, h]

/-- `hit` = 0, `rnw` = 0: the CPU writes. -/
theorem selectOperation_of_not_rnw {b : BusSample} (h : b.rnw = false) :
    selectOperation false b = .busWrite b.addr := by
  simp [selectOperation, h]

/-- SYNC is no input of the selector (R73, R91). -/
@[simp] theorem selectOperation_sync (hit sync : Bool) (b : BusSample) :
    selectOperation hit { b with sync := sync } = selectOperation hit b := rfl

/-- Each row of the selector is well formed: none of them is the UNKNOWN row. -/
theorem selectOperation_wellFormed (hit : Bool) (b : BusSample) : (selectOperation hit b).WellFormed = true := by
  cases hit with
  | true => rfl
  | false =>
    cases h : b.rnw with
    | true => rw [selectOperation_of_rnw h]; rfl
    | false => rw [selectOperation_of_not_rnw h]; rfl

namespace Machine

/-- A responder invocation presents the new cycle and performs the operation that the comparison with the table and the
sample select (R73, R85). -/
theorem busCycle_eq_exec_selectOperation (s : State) :
    busCycle s = exec (selectOperation (bpContains (presentCycle s).lines.sample.addr (presentCycle s))
      (presentCycle s).lines.sample) (presentCycle s) := rfl

/-! ### The obligations -/

/-- Settles O5: each field decodes through `u16OfBytes`, whose value is `first * 256 + second` (R60). -/
theorem fieldsAreBigEndian : Obligations.FieldsAreBigEndian := by
  unfold Obligations.FieldsAreBigEndian
  intro f g h k d rest
  exact ⟨u16OfBytes f g, u16OfBytes h k, u16OfBytes_toNat f g, u16OfBytes_toNat h k,
    decodeCommand_write f g d rest, decodeCommand_read f g rest, decodeCommand_setBreakpoint f g rest,
    decodeCommand_load f g h k rest⟩

/-- Settles O6: the rows of the selector, and the responder's use of it (R73). -/
theorem sampleSelectsOperation : Obligations.SampleSelectsOperation := by
  unfold Obligations.SampleSelectsOperation
  exact ⟨selectOperation_hit, fun _ => selectOperation_of_rnw, fun _ => selectOperation_of_not_rnw,
    selectOperation_sync, selectOperation_wellFormed, busCycle_eq_exec_selectOperation⟩

end Machine

end Sys2Proof

/-! ## The primitives: the byte store (R75, R76) and the breakpoint table (R78 to R80) -/

namespace Sys2Proof.Machine

/-! ### The table's own operations -/

/-- The comparison with the table is membership of the whole address (R79). -/
theorem bpContains_iff_mem (a : Addr) (s : State) : bpContains a s = true ↔ a ∈ s.bps := by
  simp [bpContains]

/-- An add is accepted exactly while the table has room (R78, R81 (3)). -/
theorem bpAdd_accepts (a : Addr) (s : State) : (bpAdd a s).2 = decide (s.bps.length < s.cfg.bpCapacity) := by
  rw [bpAdd_eq]
  by_cases h : s.bps.length < s.cfg.bpCapacity <;> simp [h]

/-- A sequence of adds appends as many of the addresses as there is room for, the first ones, in order. -/
theorem foldl_bpAdd (as : List Addr) (s : State) :
    as.foldl (fun u a => (bpAdd a u).1) s =
      { s with bps := s.bps ++ as.take (s.cfg.bpCapacity - s.bps.length) } := by
  induction as generalizing s with
  | nil => simp
  | cons a as ih =>
    rw [List.foldl_cons, ih, bpAdd_eq]
    by_cases h : s.bps.length < s.cfg.bpCapacity
    · have hroom : s.cfg.bpCapacity - s.bps.length = s.cfg.bpCapacity - (s.bps.length + 1) + 1 := by omega
      simp [h, hroom]
    · have hroom : s.cfg.bpCapacity - s.bps.length = 0 := by omega
      simp [h, hroom]

/-! ### The operations that leave the table alone -/

@[simp] theorem memWrite_bps (a : Addr) (b : Byte) (s : State) : (memWrite a b s).1.bps = s.bps := by
  obtain ⟨m, h, -, -⟩ := memWrite_spec a b s
  rw [h]

@[simp] theorem transmit_bps (bs : List Byte) (s : State) : (transmit bs s).1.bps = s.bps := by
  obtain ⟨sent, room, -, h⟩ := transmit_spec bs s
  rw [h]

@[simp] theorem sendResponse_bps (bs : List Byte) (s : State) : (sendResponse bs s).bps = s.bps := by
  obtain ⟨sent, rest, room, -, h⟩ := sendResponse_spec bs s
  rw [h]

@[simp] theorem respond_bps (t : Text) (s : State) : (respond t s).bps = s.bps := sendResponse_bps _ s

@[simp] theorem raiseError_bps (t : Text) (s : State) : (raiseError t s).bps = s.bps := respond_bps t s

@[simp] theorem serveRead_bps (a : Addr) (s : State) : (serveRead a s).bps = s.bps := by rw [serveRead_eq]

@[simp] theorem serveWrite_bps (a : Addr) (s : State) : (serveWrite a s).bps = s.bps := by rw [serveWrite_eq]

@[simp] theorem endHit_bps (a : Addr) (rnw : Bool) (s : State) : (endHit a rnw s).bps = s.bps := by
  obtain ⟨es, m, h, -, -⟩ := endHit_spec a rnw s
  rw [h]

@[simp] theorem debugStop_bps (a : Addr) (rnw : Bool) (s : State) : (debugStop a rnw s).bps = s.bps := by
  obtain ⟨sent, room, ⟨-, h⟩ | ⟨rest, -, -, h⟩⟩ := debugStop_cases a rnw s
  · rw [h, endHit_bps, setHalted_bps]
  · rw [h, setHalted_bps]

@[simp] theorem drainLoad_bps (addr : Addr) (i left : Nat) (s : State) : (drainLoad addr i left s).bps = s.bps := by
  rcases drainLoad_spec addr i left s with ⟨-, h⟩ | ⟨-, h⟩
  · rw [h]
  · rw [h, raiseError_bps]

@[simp] theorem loadBytes_bps (addr : Addr) (left i : Nat) (s : State) : (loadBytes addr left i s).bps = s.bps := by
  obtain ⟨m, q, -, -, h | ⟨j, h⟩ | ⟨j, l, -, -, h⟩ | ⟨j, l, -, -, h⟩⟩ := loadBytes_spec addr left i s
  · rw [h, respond_bps]
  · rw [h, raiseError_bps]
  · rw [h]
  · rw [h]

@[simp] theorem presentCycle_bps (s : State) : (presentCycle s).bps = s.bps := by
  obtain ⟨l, cs, n, h⟩ := presentCycle_spec s
  rw [h]

@[simp] theorem clockPulse_bps (s : State) : (clockPulse s).bps = s.bps := by rw [clockPulse_eq]

@[simp] theorem resetPulse_bps (s : State) : (resetPulse s).bps = s.bps := by rw [resetPulse_eq]

@[simp] theorem controllerTransition_bps (s : State) : (controllerTransition s).bps = s.bps := by
  rw [controllerTransition_cases]
  split
  · split <;> rfl
  · split
    · rfl
    · exact respond_bps _ s

@[simp] theorem afterResponder_bps (s : State) : (afterResponder s).bps = s.bps := by
  unfold afterResponder
  split
  · rfl
  · exact controllerTransition_bps s

@[simp] theorem resumeNotification_bps (bs : List Byte) (a : Addr) (rnw inStep : Bool) (s : State) :
    (resumeNotification bs a rnw inStep s).bps = s.bps := by
  unfold resumeNotification
  cases h : (transmit bs s).2 with
  | nil => cases inStep <;> simp [h]
  | cons b rest => simp [h]

/-- A responder invocation leaves the table alone, whichever of its three operations it performs. -/
theorem busCycle_bps {s t : State} (h : busCycle s = .next t) : t.bps = s.bps := by
  rcases busCycle_cases s with ⟨-, he⟩ | ⟨-, -, he⟩ | ⟨-, -, he⟩
  all_goals
    rw [he] at h
    cases h
    simp

theorem stepIteration_bps {s t : State} (h : stepIteration s = .next t) : t.bps = s.bps := by
  unfold stepIteration at h
  cases hb : busCycle (clockPulse s) with
  | next u =>
    rw [hb] at h
    cases h
    rw [afterResponder_bps, busCycle_bps hb, clockPulse_bps]
  | fault r => rw [hb] at h; cases h
  | refused r => rw [hb] at h; cases h

/-! ### What a step can do to the table -/

/-- The table after `B`: the address appended while there is room. -/
theorem exec_setBreakpoint_bps {a : Addr} {s t : State} (h : exec (.setBreakpoint a) s = .next t) :
    t.bps = s.bps ∨ t.bps = s.bps ++ [a] := by
  cases h
  rw [bpAdd_eq]
  by_cases hroom : s.bps.length < s.cfg.bpCapacity
  · exact .inr (by simp [hroom])
  · exact .inl (by simp [hroom])

/-- Of the thirteen operations only `B` changes the table, and it only appends its own address. -/
theorem exec_bps {i : Instr} {s t : State} (h : exec i s = .next t) :
    t.bps = s.bps ∨ ∃ a, i = .setBreakpoint a ∧ t.bps = s.bps ++ [a] := by
  cases i with
  | setBreakpoint a => exact (exec_setBreakpoint_bps h).imp_right fun ht => ⟨a, rfl, ht⟩
  | write addr data =>
    cases h
    left
    split <;> simp
  | read addr =>
    cases h
    left
    split <;> simp
  | reset | halt | cont | stepOne | load | getRegisters | unknown | busBpHit | busRead | busWrite =>
    cases h
    simp

/-- A step changes the table only by running a `B`, which appends its own address. -/
theorem step_bps {s t : State} (h : step s = .next t) :
    t.bps = s.bps ∨ ∃ a rest, commandTaken s = some (.setBreakpoint a, rest) ∧ t.bps = s.bps ++ [a] := by
  rcases step_cases s with ⟨i, rest, htaken, he⟩ | ⟨got, e, -, -, -, he⟩ | ⟨-, -, -, -, hcycle⟩ | ⟨-, -, -, he⟩ |
    ⟨addr, i, left, -, he⟩ | ⟨addr, i, left, -, he⟩ | ⟨-, -, hstepping⟩ | ⟨bs, -, he⟩ | ⟨bs, a, r, b, -, he⟩
  · rcases exec_bps (he.symm.trans h) with ht | ⟨a, rfl, ht⟩
    · exact .inl (by simpa using ht)
    · exact .inr ⟨a, rest, htaken, by simpa using ht⟩
  · cases he.symm.trans h; simp
  · exact .inl (by simpa using busCycle_bps (hcycle.symm.trans h))
  · cases he.symm.trans h; simp
  · cases he.symm.trans h; simp
  · cases he.symm.trans h; simp
  · exact .inl (by simpa using stepIteration_bps (hstepping.symm.trans h))
  · cases he.symm.trans h; simp
  · cases he.symm.trans h; simp

/-- The table only grows, and at its end. -/
theorem step_bps_grows {s t : State} (h : step s = .next t) : ∃ more, t.bps = s.bps ++ more := by
  rcases step_bps h with ht | ⟨a, -, -, ht⟩
  · exact ⟨[], by rw [ht, List.append_nil]⟩
  · exact ⟨[a], ht⟩

/-- A contained address stays contained: no step forgets one (R80). -/
theorem step_keeps_bpContains {s t : State} {a : Addr} (h : step s = .next t) (ha : bpContains a s = true) :
    bpContains a t = true := by
  rw [bpContains_iff_mem] at ha ⊢
  obtain ⟨more, ht⟩ := step_bps_grows h
  rw [ht]
  exact List.mem_append_left more ha

/-! ### The obligations -/

/-- Settles O7: the two answers of `memRead`; with `MEM_SIZE` = 65536 every 16-bit address is valid. -/
theorem storeReadAnswersByteOrSentinel : Obligations.StoreReadAnswersByteOrSentinel := by
  unfold Obligations.StoreReadAnswersByteOrSentinel
  exact ⟨fun _ _ => memRead_valid, fun _ _ => memRead_invalid,
    fun _ a hsize => memRead_valid (by rw [hsize]; exact a.isLt), rfl⟩

/-- Settles O8: a valid write is one `Memory.write`, which keeps the form and every other cell. -/
theorem storeWriteSetsOneCell : Obligations.StoreWriteSetsOneCell := by
  unfold Obligations.StoreWriteSetsOneCell
  intro s a b hwf
  refine ⟨fun hvalid => ⟨s.mem.write a.toNat b, memWrite_valid b hvalid, wf_write hwf _ _, ?_, ?_⟩,
    memWrite_invalid b⟩
  · exact read_write_same hwf _ _
  · exact fun _ hk => read_write_other hwf _ hk

/-- Settles O11: membership in the table is equality with the entry at some index, which is then below `BPCNT`. -/
theorem tableContainsComparesEntries : Obligations.TableContainsComparesEntries := by
  unfold Obligations.TableContainsComparesEntries
  intro s a
  rw [bpContains_iff_mem, List.mem_iff_getElem?]
  constructor
  · rintro ⟨i, hi⟩
    obtain ⟨hlt, -⟩ := List.getElem?_eq_some_iff.mp hi
    exact ⟨i, hlt, hi⟩
  · rintro ⟨i, -, hi⟩
    exact ⟨i, hi⟩

/-- Settles O12: `foldl_bpAdd` from the empty table gives the adds, `step_keeps_bpContains` the permanence. -/
theorem tableAcceptsExactlyCapacity : Obligations.TableAcceptsExactlyCapacity := by
  unfold Obligations.TableAcceptsExactlyCapacity
  refine ⟨fun s as hempty => ?_, fun s t a => step_keeps_bpContains⟩
  have hcount : (as.take s.cfg.bpCapacity).length = min as.length s.cfg.bpCapacity := by
    rw [List.length_take, Nat.min_comm]
  have hroom : min as.length s.cfg.bpCapacity < s.cfg.bpCapacity ↔ as.length < s.cfg.bpCapacity := by omega
  intro full
  have hfull : full = { s with bps := as.take s.cfg.bpCapacity } := by
    simp [full, foldl_bpAdd, hempty]
  rw [hfull]
  refine ⟨rfl, hcount, fun a => ?_, fun a => bpContains_iff_mem a _⟩
  rw [bpAdd_accepts, hcount]
  exact decide_eq_decide.mpr hroom

end Sys2Proof.Machine

/-! ## The bus responder: the bus read (R88) and one invocation (R85) -/

namespace Sys2Proof.Machine

variable {s t : State}

/-! ### The bus read -/

/-- `BUS.READ`, with the driven byte read from the store or replaced by the sentinel (R75, R88). -/
theorem exec_busRead (a : Addr) (s : State) :
    exec (.busRead a) s =
      let b := if a.toNat < s.cfg.memSize then s.mem.read a.toNat else s.cfg.sentinel
      .next { s with dout := b, doe := false, trace := s.trace ++ [.drive b, .release] } := by
  have hbyte : (memRead a s).1 = if a.toNat < s.cfg.memSize then s.mem.read a.toNat else s.cfg.sentinel := by
    rw [memRead_eq, apply_ite Prod.fst]
  have hexec : exec (.busRead a) s = .next (serveRead a s) := rfl
  rw [hexec, serveRead_eq, hbyte]

/-- `BUS.READ` is one row of the selector: no hit, and the CPU reads (R73). -/
theorem selectOperation_eq_busRead_iff (hit : Bool) (b : BusSample) (a : Addr) :
    selectOperation hit b = .busRead a ↔ hit = false ∧ b.rnw = true ∧ b.addr = a := by
  cases hit with
  | true => simp
  | false =>
    cases hr : b.rnw with
    | true => simp [selectOperation_of_rnw hr]
    | false => simp [selectOperation_of_not_rnw hr]

/-! ### The three rows of an invocation -/

/-- The comparison of an invocation finds the entries of the table before it. -/
theorem bpContains_presentCycle_iff (a : Addr) (s : State) : bpContains a (presentCycle s) = true ↔ a ∈ s.bps := by
  rw [bpContains_iff_mem, presentCycle_bps]

/-- An invocation whose sampled address is in the table is the debug stop. -/
theorem busCycle_of_hit (h : (presentCycle s).lines.sample.addr ∈ s.bps) :
    busCycle s = exec (.busBpHit (presentCycle s).lines.sample.addr (presentCycle s).lines.sample.rnw)
      (presentCycle s) := by
  rw [busCycle_eq_exec_selectOperation, (bpContains_presentCycle_iff _ s).mpr h, selectOperation_hit]

/-- An invocation that does not hit is a bus read when the CPU reads. -/
theorem busCycle_of_read (h : (presentCycle s).lines.sample.addr ∉ s.bps)
    (hr : (presentCycle s).lines.sample.rnw = true) :
    busCycle s = exec (.busRead (presentCycle s).lines.sample.addr) (presentCycle s) := by
  rw [busCycle_eq_exec_selectOperation,
    Bool.eq_false_iff.mpr (mt (bpContains_presentCycle_iff _ s).mp h), selectOperation_of_rnw hr]

/-- An invocation that does not hit is a bus write when the CPU writes. -/
theorem busCycle_of_write (h : (presentCycle s).lines.sample.addr ∉ s.bps)
    (hr : (presentCycle s).lines.sample.rnw = false) :
    busCycle s = exec (.busWrite (presentCycle s).lines.sample.addr) (presentCycle s) := by
  rw [busCycle_eq_exec_selectOperation,
    Bool.eq_false_iff.mpr (mt (bpContains_presentCycle_iff _ s).mp h), selectOperation_of_not_rnw hr]

/-- An invocation always ends in a next state: each of its three operations does. -/
theorem busCycle_answers (s : State) : ∃ t, busCycle s = .next t := by
  rcases busCycle_cases s with ⟨-, he⟩ | ⟨-, -, he⟩ | ⟨-, -, he⟩
  all_goals exact ⟨_, he⟩

/-! ### The two callers -/

/-- An iteration of the main loop makes one invocation while Running with no byte waiting (R150). -/
theorem mainLoop_of_running (hq : s.rxq = []) (hr : s.run = .running) : mainLoop s = busCycle s := by
  simp [mainLoop, hq, hr]

/-- An iteration of a Step makes one invocation after its pulse, and goes on where the invocation ends (R100). -/
theorem stepIteration_of_busCycle (h : busCycle (clockPulse s) = .next t) :
    stepIteration s = .next (afterResponder t) := by
  simp [stepIteration, h]

/-! ### `RUN` is not read by an invocation -/

/-- The CPU's next answer does not depend on `RUN`. -/
theorem presentCycle_with_run (r : RunState) (s : State) :
    presentCycle { s with run := r } = { presentCycle s with run := r } := by
  unfold presentCycle
  cases s.cpuIn with
  | nil => rfl
  | cons c cs => rfl

/-- The debug stop ends Halted, whatever `RUN` was. -/
theorem debugStop_with_run (r : RunState) (a : Addr) (rnw : Bool) (s : State) :
    debugStop a rnw { s with run := r } = debugStop a rnw s := rfl

/-- The bus read carries `RUN` through. -/
theorem serveRead_with_run (r : RunState) (a : Addr) (s : State) :
    serveRead a { s with run := r } = { serveRead a s with run := r } := rfl

/-- The bus write carries `RUN` through. -/
theorem serveWrite_with_run (r : RunState) (a : Addr) (s : State) :
    serveWrite a { s with run := r } = { serveWrite a s with run := r } := by
  simp [serveWrite_eq]

/-- From another `RUN` each row of the selector ends in the same state but for `RUN`: the debug stop overwrites it, and the
other two operations carry it through. -/
theorem exec_selectOperation_with_run (hit : Bool) (b : BusSample) (r : RunState)
    (h : exec (selectOperation hit b) s = .next t) :
    ∃ q, exec (selectOperation hit b) { s with run := r } = .next { t with run := q } := by
  cases hit with
  | true =>
    cases h
    exact ⟨_, congrArg Host.Outcome.next (debugStop_with_run r b.addr b.rnw s)⟩
  | false =>
    cases hr : b.rnw with
    | true =>
      rw [selectOperation_of_rnw hr] at h ⊢
      cases h
      exact ⟨r, congrArg Host.Outcome.next (serveRead_with_run r b.addr s)⟩
    | false =>
      rw [selectOperation_of_not_rnw hr] at h ⊢
      cases h
      exact ⟨r, congrArg Host.Outcome.next (serveWrite_with_run r b.addr s)⟩

/-- From another `RUN` an invocation ends in the same state but for `RUN`. -/
theorem busCycle_with_run (r : RunState) (h : busCycle s = .next t) :
    ∃ q, busCycle { s with run := r } = .next { t with run := q } := by
  rw [busCycle_eq_exec_selectOperation] at h ⊢
  rw [presentCycle_with_run]
  exact exec_selectOperation_with_run _ _ r h

/-! ### The obligations -/

/-- Settles O14: `BUS.READ` by `exec_busRead`, its selector row by `selectOperation_eq_busRead_iff` (R88). -/
theorem busReadDrivesThenReleases : Obligations.BusReadDrivesThenReleases := by
  unfold Obligations.BusReadDrivesThenReleases
  exact ⟨fun s a => exec_busRead a s, selectOperation_eq_busRead_iff⟩

/-- Settles O18: the three rows of an invocation, its two callers, its end in a next state, and its independence of `RUN`
(R85). -/
theorem responderInvocationOrder : Obligations.ResponderInvocationOrder := by
  unfold Obligations.ResponderInvocationOrder
  refine ⟨fun s c cs hcpu => ?_, fun s hphase hq hrun => ?_, fun s hphase => ?_, busCycle_answers,
    fun s t r h => ?_⟩
  · have hp := presentCycle_script hcpu
    refine ⟨fun hhit => ?_, fun hmiss hrnw => ?_, fun hmiss hrnw => ?_⟩
    · rw [busCycle_of_hit (by rwa [hp]), hp]
    · rw [busCycle_of_read (by rwa [hp]) (by rwa [hp]), hp]
    · rw [busCycle_of_write (by rwa [hp]) (by rwa [hp]), hp]
  · rw [step_eq, advance_atLoop ((pollHost_phase s).trans hphase),
      mainLoop_of_running hq ((pollHost_run s).trans hrun)]
  · obtain ⟨t, ht⟩ := busCycle_answers (clockPulse (pollHost s))
    refine ⟨t, ht, ?_⟩
    rw [step_eq, advance_stepping ((pollHost_phase s).trans hphase), stepIteration_of_busCycle ht]
  · obtain ⟨q, hq⟩ := busCycle_with_run r h
    exact ⟨_, hq, rfl⟩

end Sys2Proof.Machine

/-! ## The step controller: what is served, and what is not, inside a Step (R109) -/

namespace Sys2Proof.Machine

variable {s t : State}

/-! ### The operations that leave the receive queue alone -/

@[simp] theorem transmit_rxq (bs : List Byte) (s : State) : (transmit bs s).1.rxq = s.rxq := by
  obtain ⟨sent, room, -, h⟩ := transmit_spec bs s
  rw [h]

@[simp] theorem sendResponse_rxq (bs : List Byte) (s : State) : (sendResponse bs s).rxq = s.rxq := by
  obtain ⟨sent, rest, room, -, h⟩ := sendResponse_spec bs s
  rw [h]

@[simp] theorem respond_rxq (x : Text) (s : State) : (respond x s).rxq = s.rxq := sendResponse_rxq _ s

@[simp] theorem serveRead_rxq (a : Addr) (s : State) : (serveRead a s).rxq = s.rxq := by rw [serveRead_eq]

@[simp] theorem serveWrite_rxq (a : Addr) (s : State) : (serveWrite a s).rxq = s.rxq := by rw [serveWrite_eq]

@[simp] theorem endHit_rxq (a : Addr) (rnw : Bool) (s : State) : (endHit a rnw s).rxq = s.rxq := by
  obtain ⟨es, m, h, -, -⟩ := endHit_spec a rnw s
  rw [h]

@[simp] theorem debugStop_rxq (a : Addr) (rnw : Bool) (s : State) : (debugStop a rnw s).rxq = s.rxq := by
  obtain ⟨sent, room, ⟨-, h⟩ | ⟨rest, -, -, h⟩⟩ := debugStop_cases a rnw s
  · rw [h, endHit_rxq, setHalted_rxq]
  · rw [h, setHalted_rxq]

@[simp] theorem presentCycle_rxq (s : State) : (presentCycle s).rxq = s.rxq := by
  obtain ⟨l, cs, n, h⟩ := presentCycle_spec s
  rw [h]

@[simp] theorem clockPulse_rxq (s : State) : (clockPulse s).rxq = s.rxq := by rw [clockPulse_eq]

@[simp] theorem controllerTransition_rxq (s : State) : (controllerTransition s).rxq = s.rxq := by
  rw [controllerTransition_cases]
  split
  · split <;> rfl
  · split
    · rfl
    · exact respond_rxq _ s

@[simp] theorem afterResponder_rxq (s : State) : (afterResponder s).rxq = s.rxq := by
  unfold afterResponder
  split
  · rfl
  · exact controllerTransition_rxq s

/-- The rest of a notification, whatever the room: it ends, and the hit with it, or it waits further (R87, R106). -/
theorem resumeNotification_cases (bs : List Byte) (a : Addr) (rnw inStep : Bool) (s : State) :
    ∃ sent room,
      (sent = bs ∧ ∃ u, u = endHit a rnw { s with
          txq := s.txq ++ sent, trace := s.trace ++ sent.map Event.tx, txRoom := room } ∧
        resumeNotification bs a rnw inStep s =
          if inStep then controllerTransition { u with phase := .stepping } else { u with phase := .atLoop }) ∨
      (∃ rest, rest ≠ [] ∧ bs = sent ++ rest ∧
        resumeNotification bs a rnw inStep s = { s with
          txq := s.txq ++ sent, trace := s.trace ++ sent.map Event.tx, txRoom := room,
          phase := .notifying rest a rnw inStep }) := by
  obtain ⟨sent, room, h₁, h₂⟩ := transmit_spec bs s
  refine ⟨sent, room, ?_⟩
  unfold resumeNotification
  cases h : (transmit bs s).2 with
  | nil => exact .inl ⟨by rw [h₁, h, List.append_nil], _, rfl, by simp only [h, h₂]⟩
  | cons b rest => exact .inr ⟨b :: rest, by simp, by rw [h₁, h], by simp only [h, h₂]⟩

@[simp] theorem resumeNotification_rxq (bs : List Byte) (a : Addr) (rnw inStep : Bool) (s : State) :
    (resumeNotification bs a rnw inStep s).rxq = s.rxq := by
  obtain ⟨sent, room, ⟨-, u, hu, h⟩ | ⟨rest, -, -, h⟩⟩ := resumeNotification_cases bs a rnw inStep s
  · have hrxq : u.rxq = s.rxq := by rw [hu, endHit_rxq]
    rw [h]
    split
    · rw [controllerTransition_rxq, hrxq]
    · exact hrxq
  · rw [h]

/-- A responder invocation takes no byte from the host, whichever of its three operations it performs. -/
theorem busCycle_rxq (h : busCycle s = .next t) : t.rxq = s.rxq := by
  rcases busCycle_cases s with ⟨-, he⟩ | ⟨-, -, he⟩ | ⟨-, -, he⟩
  all_goals
    rw [he] at h
    cases h
    simp

/-! ### The responder does not leave the Step -/

@[simp] theorem presentCycle_phase (s : State) : (presentCycle s).phase = s.phase := by
  obtain ⟨l, cs, n, h⟩ := presentCycle_spec s
  rw [h]

@[simp] theorem clockPulse_phase (s : State) : (clockPulse s).phase = s.phase := by rw [clockPulse_eq]

@[simp] theorem serveRead_phase (a : Addr) (s : State) : (serveRead a s).phase = s.phase := by rw [serveRead_eq]

@[simp] theorem serveWrite_phase (a : Addr) (s : State) : (serveWrite a s).phase = s.phase := by rw [serveWrite_eq]

@[simp] theorem endHit_phase (a : Addr) (rnw : Bool) (s : State) : (endHit a rnw s).phase = s.phase := by
  obtain ⟨es, m, h, -, -⟩ := endHit_spec a rnw s
  rw [h]

/-- A debug stop may wait inside its notification, and the wait belongs to a Step exactly when its cycle does. -/
@[simp] theorem debugStop_inStep (a : Addr) (rnw : Bool) (s : State) :
    (debugStop a rnw s).phase.inStep = s.phase.inStep := by
  obtain ⟨sent, room, ⟨-, h⟩ | ⟨rest, -, -, h⟩⟩ := debugStop_cases a rnw s
  · rw [h, endHit_phase, setHalted_phase]
  · rw [h]; rfl

/-- A responder invocation neither enters nor leaves a Step. -/
theorem busCycle_inStep (h : busCycle s = .next t) : t.phase.inStep = s.phase.inStep := by
  rcases busCycle_cases s with ⟨-, he⟩ | ⟨-, -, he⟩ | ⟨-, -, he⟩
  all_goals
    rw [he] at h
    cases h
    simp

/-! ### The one exit of the Step loop -/

/-- The thread of control is inside a Step, or has just left it by sending the status text of `S` (R104, R106). -/
def InStepOrEnded (s : State) : Prop := s.phase.inStep = true ∨ ∃ u, s = respond .statusStep u

/-- The controller's transition stays in the Step but for the case of R103 that ends the loop. -/
theorem controllerTransition_inStepOrEnded (h : s.phase.inStep = true) : InStepOrEnded (controllerTransition s) := by
  rw [controllerTransition_cases]
  split
  · split
    · exact .inl h
    · exact .inl h
  · split
    · exact .inl h
    · exact .inr ⟨s, rfl⟩

/-- After the responder, the Step goes on inside a notification or makes the controller's transition. -/
theorem afterResponder_inStepOrEnded (h : s.phase.inStep = true) : InStepOrEnded (afterResponder s) := by
  unfold afterResponder
  split
  · exact .inl h
  · exact controllerTransition_inStepOrEnded h

/-- A notification of a Step's cycle waits further, or ends and comes to the controller's transition (R106). -/
theorem resumeNotification_inStepOrEnded (bs : List Byte) (a : Addr) (rnw : Bool) (s : State) :
    InStepOrEnded (resumeNotification bs a rnw true s) := by
  obtain ⟨sent, room, ⟨-, u, -, h⟩ | ⟨rest, -, -, h⟩⟩ := resumeNotification_cases bs a rnw true s
  · rw [h, if_pos rfl]
    exact controllerTransition_inStepOrEnded rfl
  · rw [h]
    exact .inl rfl

/-! ### A machine step inside a Step -/

/-- The two places of the thread of control inside a Step. -/
theorem Phase.inStep_iff (p : Phase) :
    p.inStep = true ↔ p = .stepping ∨ ∃ bs a rnw, p = .notifying bs a rnw true := by
  cases p <;> simp [Phase.inStep]

/-- Inside a Step a machine step is an iteration of the Step loop, or the rest of a notification of it. -/
theorem step_cases_of_inStep (h : s.phase.inStep = true) :
    (∃ u, busCycle (clockPulse (pollHost s)) = .next u ∧ step s = .next (afterResponder u)) ∨
    (∃ bs a rnw, step s = .next (resumeNotification bs a rnw true (pollHost s))) := by
  rw [step_eq]
  rcases (Phase.inStep_iff s.phase).mp h with hp | ⟨bs, a, rnw, hp⟩
  · obtain ⟨u, hu⟩ := busCycle_answers (clockPulse (pollHost s))
    refine .inl ⟨u, hu, ?_⟩
    rw [advance_stepping ((pollHost_phase s).trans hp), stepIteration_of_busCycle hu]
  · exact .inr ⟨bs, a, rnw, advance_notifying ((pollHost_phase s).trans hp)⟩

theorem commandTaken_of_inStep (h : s.phase.inStep = true) : commandTaken s = none := by
  rcases (Phase.inStep_iff s.phase).mp h with hp | ⟨bs, a, rnw, hp⟩ <;> simp [commandTaken, hp]

/-- Inside a Step the host's bytes wait in the receive queue (R28, R109). -/
theorem step_rxq_of_inStep (h : s.phase.inStep = true) (hs : step s = .next t) : t.rxq = (pollHost s).rxq := by
  rcases step_cases_of_inStep h with ⟨u, hu, he⟩ | ⟨bs, a, rnw, he⟩
  · cases he.symm.trans hs
    rw [afterResponder_rxq, busCycle_rxq hu, clockPulse_rxq]
  · cases he.symm.trans hs
    rw [resumeNotification_rxq]

theorem step_inStepOrEnded (h : s.phase.inStep = true) (hs : step s = .next t) : InStepOrEnded t := by
  rcases step_cases_of_inStep h with ⟨u, hu, he⟩ | ⟨bs, a, rnw, he⟩
  · cases he.symm.trans hs
    refine afterResponder_inStepOrEnded ?_
    rw [busCycle_inStep hu, clockPulse_phase, pollHost_phase, h]
  · cases he.symm.trans hs
    exact resumeNotification_inStepOrEnded bs a rnw (pollHost s)

theorem pollHost_rxq_grows (s : State) : ∃ bs, (pollHost s).rxq = s.rxq ++ bs := by
  obtain ⟨bs, room, ts, n, h⟩ := pollHost_spec s
  exact ⟨bs, by rw [h]⟩

/-! ### The obligation -/

/-- Settles O35: a machine step inside a Step is an iteration of its loop or the rest of a notification, and neither takes
a byte nor leaves but by the status text (R109); `S` enters the loop Halted from every state. -/
theorem stepServesNothingElse : Obligations.StepServesNothingElse := by
  unfold Obligations.StepServesNothingElse
  refine ⟨fun s t h hs => ?_, fun s => ⟨_, rfl, rfl, rfl⟩⟩
  exact ⟨commandTaken_of_inStep h, step_rxq_of_inStep h hs, pollHost_rxq_grows s, step_inStepOrEnded h hs⟩

end Sys2Proof.Machine

/-! ## The run-control commands: H (R116), C (R117), and their independence of `RUN` (R119) -/

namespace Sys2Proof

/-! ### Two codes of format `F0` -/

/-- `H`: format `F0`, the code byte alone (R55, R57). -/
@[simp] theorem decodeCommand_halt (rest : List Byte) : decodeCommand (0x48#8 :: rest) = .ok (.halt, rest) := by
  simp [decodeCommand]

/-- `C`: format `F0`, the code byte alone (R55, R57). -/
@[simp] theorem decodeCommand_cont (rest : List Byte) : decodeCommand (0x43#8 :: rest) = .ok (.cont, rest) := by
  simp [decodeCommand]

namespace Machine

variable {s : State}

/-! ### What each of the four commands does: the field values it writes, none of them taken from `RUN` -/

theorem exec_reset (s : State) :
    exec .reset s = .next (respond .statusReset
      { s with run := .running, rstn := true, trace := s.trace ++ [.resetLow, .resetHigh] }) := by
  have hexec : exec .reset s = .next (respond .statusReset (setRunning (resetPulse s))) := rfl
  rw [hexec, resetPulse_eq, setRunning]

theorem exec_halt (s : State) : exec .halt s = .next (respond .statusHalt { s with run := .halted, clk := false }) := rfl

theorem exec_cont (s : State) : exec .cont s = .next (respond .statusContinue { s with run := .running }) := rfl

theorem exec_stepOne (s : State) :
    exec .stepOne s =
      .next { s with run := .halted, clk := false, stepState := .awaitSyncRise, phase := .stepping } := rfl

/-! ### The clock line after a response -/

@[simp] theorem respond_run (x : Text) (s : State) : (respond x s).run = s.run := by
  obtain ⟨sent, rest, room, -, h⟩ := sendResponse_spec (textBytes x) s
  rw [respond, h]

@[simp] theorem respond_clk (x : Text) (s : State) : (respond x s).clk = s.clk := by
  obtain ⟨sent, rest, room, -, h⟩ := sendResponse_spec (textBytes x) s
  rw [respond, h]

/-- While Halted the clock line follows the block's latch (R18). -/
theorem clockLine_of_halted (h : s.run = .halted) : clockLine s = s.clk := by
  simp [clockLine, h]

/-! ### One step from the top of the main loop -/

/-- With no byte waiting, an iteration of the main loop does nothing while Halted (R150). -/
theorem mainLoop_of_halted (hq : s.rxq = []) (hr : s.run = .halted) : mainLoop s = .next s := by
  simp [mainLoop, hq, hr]

/-- A whole command at the head of the queue is run on the state without its bytes (R56, R150). -/
theorem mainLoop_of_command {i : Instr} {rest : List Byte} (hp : s.phase = .atLoop)
    (hd : decodeCommand s.rxq = .ok (i, rest)) : mainLoop s = exec i { s with rxq := rest } := by
  have hne : s.rxq ≠ [] := by
    intro hq
    simp [hq, decodeCommand] at hd
  obtain ⟨b, q, hq⟩ := List.exists_cons_of_ne_nil hne
  have htake : mainLoop s = takeCommand [] s := by simp [mainLoop, hq]
  rw [htake]
  simp [takeCommand, hd, ← hp]

/-- A step at the top of the main loop is one iteration of it, after the host's turn. -/
theorem step_atLoop (hp : s.phase = .atLoop) : step s = mainLoop (pollHost s) := by
  rw [step_eq, advance_atLoop ((pollHost_phase s).trans hp)]

theorem step_of_command {i : Instr} {rest : List Byte} (hp : s.phase = .atLoop)
    (hd : decodeCommand (pollHost s).rxq = .ok (i, rest)) : step s = exec i { pollHost s with rxq := rest } := by
  rw [step_atLoop hp, mainLoop_of_command ((pollHost_phase s).trans hp) hd]

/-! ### The obligations -/

/-- Settles O28: the frame is `exec_halt`, the clock line follows the cleared latch, and the two steps are the main loop's
with the byte 0x48 and with no byte (R18, R116). -/
theorem haltCommandStopsService : Obligations.HaltCommandStopsService := by
  unfold Obligations.HaltCommandStopsService
  intro s
  refine ⟨exec_halt s, fun t ht => ?_, fun rest hp hq => ?_, fun hp hr hq => ?_⟩
  · cases (exec_halt s).symm.trans ht
    have hrun : (respond .statusHalt { s with run := .halted, clk := false }).run = .halted := respond_run _ _
    exact ⟨hrun, (clockLine_of_halted hrun).trans (respond_clk _ _)⟩
  · exact step_of_command hp (hq ▸ decodeCommand_halt rest)
  · rw [step_atLoop hp, mainLoop_of_halted hq ((pollHost_run s).trans hr)]

/-- Settles O29: the frame is `exec_cont`, and the two steps are the main loop's with the byte 0x43 and with no byte
(R117). -/
theorem continueCommandResumesService : Obligations.ContinueCommandResumesService := by
  unfold Obligations.ContinueCommandResumesService
  intro s
  refine ⟨exec_cont s, fun rest hp hq => ?_, fun hp hr hq => ?_⟩
  · exact step_of_command hp (hq ▸ decodeCommand_cont rest)
  · rw [step_atLoop hp, mainLoop_of_running hq ((pollHost_run s).trans hr)]

/-- Settles O31: each command's equation writes `RUN` and reads every other field only, and its right side is a next state
(R119). -/
theorem runControlIgnoresRunState : Obligations.RunControlIgnoresRunState := by
  unfold Obligations.RunControlIgnoresRunState
  intro s r i hi
  simp only [List.mem_cons, List.not_mem_nil, or_false] at hi
  rcases hi with rfl | rfl | rfl | rfl
  · exact ⟨by rw [exec_reset, exec_reset], _, exec_reset s⟩
  · exact ⟨by rw [exec_halt, exec_halt], _, exec_halt s⟩
  · exact ⟨by rw [exec_cont, exec_cont], _, exec_cont s⟩
  · exact ⟨by rw [exec_stepOne, exec_stepOne], _, exec_stepOne s⟩

end Machine

end Sys2Proof

/-! ## The memory commands: W (R125), M (R126), and the corner cases of L (R128) -/

namespace Sys2Proof

/-! ### The commands of the store as they stand on the channel -/

theorem decodeCommand_encoded_write (a : Addr) (d : Byte) (rest : List Byte) :
    decodeCommand ([0x57, u16High a, u16Low a, d] ++ rest) = .ok (.write a d, rest) :=
  (decodeCommand_write _ _ d rest).trans (by rw [u16OfBytes_high_low])

theorem decodeCommand_encoded_read (a : Addr) (rest : List Byte) :
    decodeCommand ([0x4D, u16High a, u16Low a] ++ rest) = .ok (.read a, rest) :=
  (decodeCommand_read _ _ rest).trans (by rw [u16OfBytes_high_low])

theorem decodeCommand_encoded_load (a : Addr) (size : U16) (rest : List Byte) :
    decodeCommand ([0x4C, u16High a, u16Low a, u16High size, u16Low size] ++ rest) = .ok (.load a size, rest) :=
  (decodeCommand_load _ _ _ _ rest).trans (by rw [u16OfBytes_high_low, u16OfBytes_high_low])

namespace Machine

variable {s : State}

/-! ### The two outcomes of `W` and of `M` -/

theorem exec_write_valid {a : Addr} (d : Byte) (h : a.toNat < s.cfg.memSize) :
    exec (.write a d) s = .next (respond (.statusWrite a) { s with mem := s.mem.write a.toNat d }) := by
  simp [exec, execWrite, memWrite_valid d h]

theorem exec_write_invalid {a : Addr} (d : Byte) (h : s.cfg.memSize ≤ a.toNat) :
    exec (.write a d) s = .next (raiseError (.invalidAddress a) s) := by
  simp [exec, execWrite, memWrite_invalid d h]

theorem exec_read_valid {a : Addr} (h : a.toNat < s.cfg.memSize) :
    exec (.read a) s = .next (sendResponse [s.mem.read a.toNat] s) := by
  simp [exec, execRead, memRead_valid h]

theorem exec_read_invalid {a : Addr} (h : s.cfg.memSize ≤ a.toNat) :
    exec (.read a) s = .next (raiseError (.invalidAddress a) s) := by
  simp [exec, execRead, memRead_invalid h]

/-! ### What a bus read finds after a response -/

@[simp] theorem respond_cfg (x : Text) (s : State) : (respond x s).cfg = s.cfg := by
  obtain ⟨sent, rest, room, -, h⟩ := sendResponse_spec (textBytes x) s
  rw [respond, h]

@[simp] theorem respond_mem (x : Text) (s : State) : (respond x s).mem = s.mem := by
  obtain ⟨sent, rest, room, -, h⟩ := sendResponse_spec (textBytes x) s
  rw [respond, h]

/-- A CPU read that does not hit, at an address of the store: the stored byte is driven, then the lines are released (R88). -/
theorem serveCycle_read {c : BusLines} (hr : c.sample.rnw = true) (hmiss : c.sample.addr ∉ s.bps)
    (hvalid : c.sample.addr.toNat < s.cfg.memSize) :
    ∃ u, serveCycle c s = .next u ∧ u.trace = s.trace ++ [.drive (s.mem.read c.sample.addr.toNat), .release] := by
  have hp : presentCycle { s with cpuIn := c :: s.cpuIn } = { s with lines := c } := presentCycle_script rfl
  have hserve : serveCycle c s = exec (.busRead c.sample.addr) { s with lines := c } := by
    rw [serveCycle, busCycle_of_read (by rwa [hp]) (by rwa [hp]), hp]
  rw [hserve, exec_busRead]
  exact ⟨_, rfl, by simp [hvalid]⟩

/-! ### The data bytes of `L` in the store -/

/-- The memory after `data` has been stored by an `L` for the address `a`, its first byte at offset `i` (R127). -/
def storeBytes (a : Addr) : Nat → List Byte → Memory → Memory
  | _, [], m => m
  | i, b :: bs, m => storeBytes a (i + 1) bs (m.write (loadAddress a i).toNat b)

@[simp] theorem storeBytes_nil (a : Addr) (i : Nat) (m : Memory) : storeBytes a i [] m = m := rfl

@[simp] theorem storeBytes_cons (a : Addr) (i : Nat) (b : Byte) (bs : List Byte) (m : Memory) :
    storeBytes a i (b :: bs) m = storeBytes a (i + 1) bs (m.write (loadAddress a i).toNat b) := rfl

theorem loadAddress_toNat (a : Addr) (i : Nat) : (loadAddress a i).toNat = (a.toNat + i) % 65536 := by
  simp [loadAddress]

theorem loadAddress_toNat_of_lt {a : Addr} {i : Nat} (h : a.toNat + i < 65536) :
    (loadAddress a i).toNat = a.toNat + i := by
  rw [loadAddress_toNat, Nat.mod_eq_of_lt h]

/-- Two offsets less than 65536 apart have different addresses. -/
theorem loadAddress_toNat_ne (a : Addr) {i j : Nat} (hlt : i < j) (hgap : j < i + 65536) :
    (loadAddress a j).toNat ≠ (loadAddress a i).toNat := by
  rw [loadAddress_toNat, loadAddress_toNat]
  omega

theorem wf_storeBytes (a : Addr) (i : Nat) (data : List Byte) {m : Memory} (h : m.wf) : (storeBytes a i data m).wf := by
  induction data generalizing i m with
  | nil => exact h
  | cons b bs ih => exact ih (i + 1) (wf_write h _ _)

/-- An address that is not the address of a stored byte keeps what it had. -/
theorem read_storeBytes_other {a : Addr} {i k : Nat} {data : List Byte} {m : Memory} (hm : m.wf)
    (hk : ∀ j, j < data.length → (loadAddress a (i + j)).toNat ≠ k) :
    (storeBytes a i data m).read k = m.read k := by
  induction data generalizing i m with
  | nil => rfl
  | cons b bs ih =>
    have hhead : k ≠ (loadAddress a i).toNat := (hk 0 (by simp)).symm
    have htail : ∀ j, j < bs.length → (loadAddress a (i + 1 + j)).toNat ≠ k := fun j hj => by
      rw [Nat.add_right_comm]
      exact hk (j + 1) (by simpa using hj)
    rw [storeBytes_cons, ih (wf_write hm _ _) htail, read_write_other hm b hhead]

/-- Each stored byte is at its own address: no later byte of one `L` overwrites it. -/
theorem read_storeBytes {a : Addr} {i j : Nat} {data : List Byte} {m : Memory} {b : Byte} (hm : m.wf)
    (hlen : data.length ≤ 65536) (hj : data[j]? = some b) :
    (storeBytes a i data m).read (loadAddress a (i + j)).toNat = b := by
  induction data generalizing i j m with
  | nil => simp at hj
  | cons d ds ih =>
    rw [List.length_cons] at hlen
    rw [storeBytes_cons]
    cases j with
    | zero =>
      have hd : d = b := by simpa using hj
      rw [read_storeBytes_other (wf_write hm _ _) fun j hj => loadAddress_toNat_ne a (by omega) (by omega),
        Nat.add_zero, read_write_same hm, hd]
    | succ j =>
      rw [← Nat.add_assoc, Nat.add_right_comm]
      exact ih (wf_write hm _ _) (by omega) (by simpa using hj)

/-- Bytes stored without a wrap of the address are at consecutive addresses. -/
theorem read_storeBytes_run {a : Addr} {i : Nat} {data : List Byte} {m : Memory} {b : Byte} (hm : m.wf)
    (hrun : a.toNat + data.length ≤ 65536) (hi : data[i]? = some b) :
    (storeBytes a 0 data m).read (a.toNat + i) = b := by
  obtain ⟨hlt, -⟩ := List.getElem?_eq_some_iff.mp hi
  rw [← loadAddress_toNat_of_lt (by omega), ← Nat.zero_add i]
  exact read_storeBytes hm (by omega) hi

/-- Bytes stored without a wrap of the address leave everything below and above their run as it was. -/
theorem read_storeBytes_outside_run {a : Addr} {k : Nat} {data : List Byte} {m : Memory} (hm : m.wf)
    (hrun : a.toNat + data.length ≤ 65536) (hk : k < a.toNat ∨ a.toNat + data.length ≤ k) :
    (storeBytes a 0 data m).read k = m.read k := by
  refine read_storeBytes_other hm fun j hj => ?_
  rw [Nat.zero_add, loadAddress_toNat_of_lt (by omega)]
  omega

/-! ### The loop of `L` over bytes that have arrived -/

/-- The loop of `L` takes a run of bytes that have arrived, all for addresses of the store, and stands behind them. -/
theorem loadBytes_append {a : Addr} {data rest : List Byte} (left i : Nat) (hq : s.rxq = data ++ rest)
    (hvalid : ∀ j, j < data.length → (loadAddress a (i + j)).toNat < s.cfg.memSize) :
    loadBytes a (data.length + left) i s =
      loadBytes a left (i + data.length) { s with rxq := rest, mem := storeBytes a i data s.mem } := by
  induction data generalizing i s with
  | nil =>
    have hs : { s with rxq := rest } = s := by rw [← List.nil_append rest, ← hq]
    simp [hs]
  | cons b bs ih =>
    have hcount : (b :: bs).length + left = bs.length + left + 1 := by simp only [List.length_cons]; omega
    have hhead : (loadAddress a i).toNat < s.cfg.memSize := hvalid 0 (by simp)
    have htail : ∀ j, j < bs.length → (loadAddress a (i + 1 + j)).toNat < s.cfg.memSize := fun j hj => by
      rw [Nat.add_right_comm]
      exact hvalid (j + 1) (by simpa using hj)
    have hoffset : i + 1 + bs.length = i + (b :: bs).length := by simp only [List.length_cons]; omega
    rw [hcount, loadBytes_cons a _ i hq, if_pos hhead, ← hoffset]
    exact ih (s := { s with rxq := bs ++ rest, mem := s.mem.write (loadAddress a i).toNat b }) (i + 1) rfl htail

/-! ### The three outcomes of `L` -/

section LoadOutcomes

variable {a : Addr} {size : U16} {data rest : List Byte}

theorem exec_load_complete (hq : s.rxq = data ++ rest) (hlen : data.length = size.toNat)
    (hvalid : ∀ j, j < data.length → (loadAddress a j).toNat < s.cfg.memSize) :
    exec (.load a size) s =
      .next (respond .statusLoad { s with rxq := rest, mem := storeBytes a 0 data s.mem }) := by
  have hload := loadBytes_append (a := a) 0 0 hq (by simpa using hvalid)
  rw [Nat.add_zero, hlen] at hload
  exact congrArg Host.Outcome.next hload

/-- With the default drain parameter the bytes after the failing one are left in the queue (R127). -/
theorem exec_load_fails {b : Byte} (hdrain : s.cfg.loadAbortDrains = false) (hq : s.rxq = data ++ b :: rest)
    (hlen : data.length < size.toNat) (hvalid : ∀ j, j < data.length → (loadAddress a j).toNat < s.cfg.memSize)
    (hinvalid : s.cfg.memSize ≤ (loadAddress a data.length).toNat) :
    exec (.load a size) s = .next (raiseError (.partialLoadFailure a data.length)
      { s with rxq := rest, mem := storeBytes a 0 data s.mem }) := by
  obtain ⟨left, hleft⟩ := Nat.exists_eq_add_of_lt hlen
  have hload := loadBytes_append (a := a) (left + 1) 0 hq (by simpa using hvalid)
  rw [← Nat.add_assoc, ← hleft, Nat.zero_add, loadBytes_cons _ _ _ rfl, if_neg (by simpa using hinvalid)] at hload
  refine congrArg Host.Outcome.next (hload.trans ?_)
  simp [abortLoad, hdrain]

theorem exec_load_waits (hq : s.rxq = data) (hlen : data.length < size.toNat)
    (hvalid : ∀ j, j < data.length → (loadAddress a j).toNat < s.cfg.memSize) :
    exec (.load a size) s = .next { s with
      rxq := [], mem := storeBytes a 0 data s.mem,
      phase := .loading a data.length (size.toNat - data.length) } := by
  obtain ⟨left, hleft⟩ := Nat.exists_eq_add_of_lt hlen
  have hload := loadBytes_append (a := a) (rest := []) (left + 1) 0 (by simpa using hq) (by simpa using hvalid)
  rw [← Nat.add_assoc, ← hleft, Nat.zero_add, loadBytes_nil _ _ _ rfl] at hload
  have hcount : left + 1 = size.toNat - data.length := by omega
  rw [hcount] at hload
  exact congrArg Host.Outcome.next hload

end LoadOutcomes

/-- A load that waits for a byte that the host has not sent does nothing in its step but take the host's turn (R153). -/
theorem step_loading_without_byte {a : Addr} {i left : Nat} (hp : s.phase = .loading a i left) (hleft : 0 < left)
    (hq : (pollHost s).rxq = []) : step s = .next (pollHost s) := by
  have hphase : (pollHost s).phase = .loading a i left := (pollHost_phase s).trans hp
  obtain ⟨n, rfl⟩ := Nat.exists_eq_add_one.mpr hleft
  rw [step_eq, advance_loading hphase, loadBytes_nil a n i hq, ← hphase]

/-! ### The obligations -/

/-- Settles O36: the two outcomes of `W`, its four bytes in the decoder, and a served read of the written cell. -/
theorem writeCommandStoresAndAnswers : Obligations.WriteCommandStoresAndAnswers := by
  unfold Obligations.WriteCommandStoresAndAnswers
  intro s a d hwf
  refine ⟨fun hvalid => ⟨_, exec_write_valid d hvalid, wf_write hwf _ _, read_write_same hwf _ _,
      fun _ hk => read_write_other hwf d hk⟩, exec_write_invalid d,
    fun s' rest hp hq => step_of_command hp (hq ▸ decodeCommand_encoded_write a d rest), ?_⟩
  rintro t c hvalid ht hmiss rfl hr
  cases (exec_write_valid d hvalid).symm.trans ht
  obtain ⟨u, hu, htrace⟩ := serveCycle_read hr
    (s := respond (.statusWrite c.sample.addr) { s with mem := s.mem.write c.sample.addr.toNat d })
    (by rwa [respond_bps]) (by rwa [respond_cfg])
  rw [respond_mem, read_write_same hwf] at htrace
  exact ⟨u, hu, htrace⟩

/-- Settles O37: the two outcomes of `M`, and its three bytes in the decoder. -/
theorem readCommandAnswersOneByte : Obligations.ReadCommandAnswersOneByte := by
  unfold Obligations.ReadCommandAnswersOneByte
  intro s a
  exact ⟨exec_read_valid, exec_read_invalid,
    fun s' rest hp hq => step_of_command hp (hq ▸ decodeCommand_encoded_read a rest)⟩

/-- Settles O39: each corner is one of the three outcomes of `L`, with the addresses of its bytes computed (R128). -/
theorem loadCornerCases : Obligations.LoadCornerCases := by
  unfold Obligations.LoadCornerCases
  intro s a size data rest hwf hlegal hdrain hroom hq
  have hsize : s.cfg.memSize ≤ 65536 := hlegal.2
  have hrun_valid : ∀ n, a.toNat + n ≤ s.cfg.memSize → ∀ j, j < n → (loadAddress a j).toNat < s.cfg.memSize :=
    fun n hn j hj => by rw [loadAddress_toNat_of_lt (by omega)]; omega
  have hready : ∀ x m, respond x { s with rxq := rest, mem := m } = { s with
      rxq := rest, mem := m, txq := s.txq ++ textBytes x, trace := s.trace ++ (textBytes x).map Event.tx,
      phase := .atLoop } := fun x m => respond_ready x hroom
  refine ⟨?size_zero, ?first_invalid, ?fits, ?runs_off, ?full_store, ?byte_missing, fun s' later hp hq' =>
    step_of_command hp (hq' ▸ decodeCommand_encoded_load a size later)⟩
  case size_zero =>
    rintro hzero rfl
    exact ⟨_, exec_load_complete hq hzero.symm (by simp), by simp [hready]⟩
  case first_invalid =>
    intro hinvalid hone hlen
    obtain ⟨b, rfl⟩ := List.length_eq_one_iff.mp hlen
    have hfirst : s.cfg.memSize ≤ (loadAddress a 0).toNat := by simpa [loadAddress] using hinvalid
    exact ⟨_, exec_load_fails (data := []) hdrain hq hone (by simp) hfirst, by simp [raiseError_eq, hready]⟩
  case fits =>
    intro _ hfit hlen
    rw [← hlen] at hfit ⊢
    refine ⟨_, exec_load_complete hq hlen (hrun_valid _ hfit), ?_⟩
    rw [hready]
    exact ⟨rfl, rfl, fun i b => read_storeBytes_run hwf (by omega),
      fun k => read_storeBytes_outside_run hwf (by omega)⟩
  case runs_off =>
    intro hvalid hoff hsmall hlen
    obtain ⟨front, b, rfl⟩ : ∃ front b, data = front ++ [b] :=
      ⟨_, _, (List.dropLast_append_getLast (List.ne_nil_of_length_eq_add_one hlen)).symm⟩
    have hfront : front.length = s.cfg.memSize - a.toNat := by simpa using hlen
    have hend : (loadAddress a front.length).toNat = s.cfg.memSize := by
      rw [loadAddress_toNat_of_lt (by omega)]; omega
    refine ⟨_, exec_load_fails hdrain (by simpa using hq) (by omega) (hrun_valid _ (by omega)) hend.ge, ?_⟩
    rw [raiseError_eq, hready, hfront]
    refine ⟨rfl, rfl, fun i b hi hb => ?_, fun k hk => read_storeBytes_outside_run hwf (by omega) (by omega)⟩
    rw [List.getElem?_append_left (by omega)] at hb
    exact read_storeBytes_run hwf (by omega) hb
  case full_store =>
    intro hfull hlen
    refine ⟨_, exec_load_complete hq hlen fun j _ => by rw [hfull]; exact (loadAddress a j).isLt, ?_⟩
    rw [hready]
    refine ⟨rfl, rfl, fun i b hi => ?_⟩
    rw [← loadAddress_toNat, ← Nat.zero_add i]
    exact read_storeBytes hwf (hlen ▸ size.isLt.le) hi
  case byte_missing =>
    rintro rfl hlen hfit
    rw [List.append_nil] at hq
    exact ⟨_, exec_load_waits hq hlen (hrun_valid _ hfit), rfl, rfl, rfl,
      step_loading_without_byte rfl (by omega)⟩

end Machine

end Sys2Proof

/-! ## The commands without an action: G (R142) and UNKNOWN (R143) -/

namespace Sys2Proof

/-! ### Their codes in the decoder: format `F0`, the code byte alone -/

/-- `G`: the one of the nine codes that has no success case (R57, R142). -/
@[simp] theorem decodeCommand_getRegisters (rest : List Byte) :
    decodeCommand (0x47#8 :: rest) = .ok (.getRegisters, rest) := by
  simp [decodeCommand]

/-- Only the codes `W`, `M`, `L` and `B` take argument bytes (R55). -/
theorem argumentBytes_of_not_mem {c : Byte} (hc : c ∉ commandCodes) : argumentBytes c = 0 := by
  by_contra h
  rcases argumentBytes_ne_zero h with rfl | rfl | rfl | rfl <;> exact hc (by decide)

/-- UNKNOWN: every other byte value, whatever follows it (R64, R65). -/
theorem decodeCommand_unknown {c : Byte} (hc : c ∉ commandCodes) (rest : List Byte) :
    decodeCommand (c :: rest) = .ok (.unknown c, rest) := by
  have hargs : argumentBytes c = 0 := argumentBytes_of_not_mem hc
  simp only [commandCodes, List.mem_cons, not_or] at hc
  obtain ⟨hR, hH, hC, hS, -, -, -, -, hG, -⟩ := hc
  simp [decodeCommand, hR, hH, hC, hS, hG, hargs]

namespace Machine

/-! ### What they do: an error text -/

theorem exec_getRegisters (s : State) : exec .getRegisters s = .next (raiseError .unsupportedOperation s) := rfl

theorem exec_unknown (c : Byte) (s : State) : exec (.unknown c) s = .next (raiseError (.unknownCommand c) s) := rfl

/-! ### The obligations -/

/-- Settles O44: `G` is the error text, and the byte 0x47 alone is its command (R142). -/
theorem getRegistersIsUnsupported : Obligations.GetRegistersIsUnsupported := by
  unfold Obligations.GetRegistersIsUnsupported
  exact ⟨exec_getRegisters, fun s rest hp hq => step_of_command hp (hq ▸ decodeCommand_getRegisters rest)⟩

/-- Settles O45: UNKNOWN is the error text, and any byte outside the nine codes is its whole command (R143). -/
theorem unknownCodeIsReported : Obligations.UnknownCodeIsReported := by
  unfold Obligations.UnknownCodeIsReported
  exact ⟨fun s c => exec_unknown c s,
    fun s c rest hc hp hq => step_of_command hp (hq ▸ decodeCommand_unknown hc rest)⟩

end Machine

end Sys2Proof

/-! ## Errors: what `raise` does, and that no state stops the machine (R161) -/

namespace Sys2Proof.Machine

/-! ### The report of an error -/

/-- A report is a response with the text of its kind, so it changes what a response changes (R161). -/
theorem raiseError_spec (k : Text) (s : State) :
    ∃ (sent rest : List Byte) (room : Option Nat), textBytes k = sent ++ rest ∧
      raiseError k s = { s with
        txq := s.txq ++ sent, trace := s.trace ++ sent.map Event.tx, txRoom := room,
        phase := if rest = [] then Phase.atLoop else Phase.responding rest } :=
  sendResponse_spec (textBytes k) s

/-! ### Every state has a next state -/

/-- Each of the thirteen operations ends in a next state: none faults, and none is refused. -/
theorem exec_answers (i : Instr) (s : State) : ∃ t, exec i s = .next t := by
  cases i with
  | reset | halt | cont | stepOne => exact ⟨_, rfl⟩
  | write | read | load => exact ⟨_, rfl⟩
  | setBreakpoint | getRegisters | unknown => exact ⟨_, rfl⟩
  | busBpHit | busRead | busWrite => exact ⟨_, rfl⟩

/-- An iteration of a Step goes on after its one invocation, which answers (R100). -/
theorem stepIteration_answers (s : State) : ∃ t, stepIteration s = .next t := by
  obtain ⟨t, ht⟩ := busCycle_answers (clockPulse s)
  exact ⟨afterResponder t, stepIteration_of_busCycle ht⟩

/-- Wherever the thread of control stands, the step answers: it runs an operation, an invocation or an iteration of a Step,
or it goes on with what it waits in. -/
theorem step_answers (s : State) : ∃ t, step s = .next t := by
  rcases step_cases s with ⟨i, rest, -, hcommand⟩ | ⟨got, e, -, -, -, hpart⟩ | ⟨-, -, -, -, hcycle⟩ | ⟨-, -, -, hidle⟩ |
    ⟨addr, i, left, -, hload⟩ | ⟨addr, i, left, -, hdrain⟩ | ⟨-, -, hstepping⟩ | ⟨bs, -, hresponse⟩ |
    ⟨bs, a, r, b, -, hnotification⟩
  · rw [hcommand]
    exact exec_answers i _
  · exact ⟨_, hpart⟩
  · rw [hcycle]
    exact busCycle_answers _
  · exact ⟨_, hidle⟩
  · exact ⟨_, hload⟩
  · exact ⟨_, hdrain⟩
  · rw [hstepping]
    exact stepIteration_answers _
  · exact ⟨_, hresponse⟩
  · exact ⟨_, hnotification⟩

/-! ### The obligation -/

/-- Settles O25: a report changes what a response changes, and every case of a step ends in a next state (R161). -/
theorem noFailureIsFatal : Obligations.NoFailureIsFatal := by
  unfold Obligations.NoFailureIsFatal
  exact ⟨raiseError_spec, step_answers⟩

end Sys2Proof.Machine

/-! ## The encoding: the decoder inverts the encoder, and waits only for arguments (R55 to R65) -/

namespace Sys2Proof

/-! ### The two codes of format `F0` not stated yet -/

/-- `R`: format `F0`, the code byte alone (R55, R57). -/
@[simp] theorem decodeCommand_reset (rest : List Byte) : decodeCommand (0x52#8 :: rest) = .ok (.reset, rest) := by
  simp [decodeCommand]

/-- `S`: format `F0`, the code byte alone (R55, R57). -/
@[simp] theorem decodeCommand_stepOne (rest : List Byte) : decodeCommand (0x53#8 :: rest) = .ok (.stepOne, rest) := by
  simp [decodeCommand]

theorem decodeCommand_encoded_setBreakpoint (a : Addr) (rest : List Byte) :
    decodeCommand ([0x42, u16High a, u16Low a] ++ rest) = .ok (.setBreakpoint a, rest) :=
  (decodeCommand_setBreakpoint _ _ rest).trans (by rw [u16OfBytes_high_low])

/-! ### From an instruction to its bytes and back -/

/-- A well-formed UNKNOWN stands for none of the nine codes (R64). -/
theorem not_mem_commandCodes {c : Byte} (h : (Instr.unknown c).WellFormed = true) : c ∉ commandCodes := by
  simpa [Instr.WellFormed] using h

/-- The decoder reads a well-formed command from its bytes and leaves what follows them (R55, R56). -/
theorem decodeCommand_encode {sync : Bool} {i : Instr} {bs : List Byte} (rest : List Byte) (hwf : i.WellFormed = true)
    (henc : encode sync i = .command bs) : decodeCommand (bs ++ rest) = .ok (i, rest) := by
  cases i with
  | reset => cases henc; exact decodeCommand_reset rest
  | halt => cases henc; exact decodeCommand_halt rest
  | cont => cases henc; exact decodeCommand_cont rest
  | stepOne => cases henc; exact decodeCommand_stepOne rest
  | write a d => cases henc; exact decodeCommand_encoded_write a d rest
  | read a => cases henc; exact decodeCommand_encoded_read a rest
  | load a n => cases henc; exact decodeCommand_encoded_load a n rest
  | setBreakpoint a => cases henc; exact decodeCommand_encoded_setBreakpoint a rest
  | getRegisters => cases henc; exact decodeCommand_getRegisters rest
  | unknown c => cases henc; exact decodeCommand_unknown (not_mem_commandCodes hwf) rest
  | busBpHit a rnw => cases henc
  | busRead a => cases henc
  | busWrite a => cases henc

/-- A bus cycle encodes its operation: the selector answers the operation whose signals it is given (R73). -/
theorem decode_encode_busCycle {sync hit : Bool} {i : Instr} {b : BusSample} (henc : encode sync i = .busCycle hit b) :
    decode (encode sync i) = .ok (i, []) := by
  cases i with
  | busBpHit | busRead | busWrite => rfl
  | reset | halt | cont | stepOne | write | read | load | setBreakpoint | getRegisters | unknown => cases henc

/-- The decoder inverts the encoder on both kinds of encoding. -/
theorem decode_encode (sync : Bool) {i : Instr} (hwf : i.WellFormed = true) :
    decode (encode sync i) = .ok (i, []) := by
  cases henc : encode sync i with
  | command bs => exact bs.append_nil ▸ decodeCommand_encode [] hwf henc
  | busCycle hit b => exact henc ▸ decode_encode_busCycle henc

/-- A whole `L` decodes to its address and the number of its data bytes, which stay in the queue (R56, R61). -/
theorem decodeCommand_encodeLoad (addr : Addr) (data rest : List Byte) :
    decodeCommand (encodeLoad addr data ++ rest) = .ok (.load addr (BitVec.ofNat 16 data.length), data ++ rest) := by
  rw [encodeLoad, List.append_assoc]
  exact decodeCommand_encoded_load addr _ (data ++ rest)

theorem loadSize_toNat {data : List Byte} (h : data.length < 65536) :
    (BitVec.ofNat 16 data.length).toNat = data.length := by
  rw [BitVec.toNat_ofNat, Nat.mod_eq_of_lt h]

/-! ### From bytes to the instruction they are the encoding of -/

/-- From a code byte the decoder answers a well-formed command whose encoding it has taken, where all the argument
bytes of the format are there, and otherwise says how many are missing (R55, R56, R63). -/
theorem decodeCommand_cons (c : Byte) (args : List Byte) :
    (argumentBytes c ≤ args.length ∧ ∃ i cmd rest, i.WellFormed = true ∧ (∀ sync, encode sync i = .command cmd) ∧
      c :: args = cmd ++ rest ∧ decodeCommand (c :: args) = .ok (i, rest)) ∨
    (args.length < argumentBytes c ∧
      decodeCommand (c :: args) = .error (.argumentMissing c (argumentBytes c - args.length))) := by
  rcases decodeCommand_cases c args with ⟨rfl, hd⟩ | ⟨rfl, hd⟩ | ⟨rfl, hd⟩ | ⟨rfl, hd⟩ | ⟨rfl, hd⟩ | ⟨hwf, hd⟩ |
    ⟨ah, al, rest, rfl, rfl, hd⟩ | ⟨ah, al, rest, rfl, rfl, hd⟩ | ⟨ah, al, d, rest, rfl, rfl, hd⟩ |
    ⟨ah, al, sh, sl, rest, rfl, rfl, hd⟩ | hmissing
  · exact .inl ⟨Nat.zero_le _, _, [_], args, rfl, fun _ => rfl, rfl, hd⟩
  · exact .inl ⟨Nat.zero_le _, _, [_], args, rfl, fun _ => rfl, rfl, hd⟩
  · exact .inl ⟨Nat.zero_le _, _, [_], args, rfl, fun _ => rfl, rfl, hd⟩
  · exact .inl ⟨Nat.zero_le _, _, [_], args, rfl, fun _ => rfl, rfl, hd⟩
  · exact .inl ⟨Nat.zero_le _, _, [_], args, rfl, fun _ => rfl, rfl, hd⟩
  · have hnone : argumentBytes c = 0 := argumentBytes_of_not_mem (not_mem_commandCodes hwf)
    exact .inl ⟨by omega, _, [c], args, hwf, fun _ => rfl, rfl, hd⟩
  · exact .inl ⟨by simp [argumentBytes], _, _, rest, rfl, fun _ => rfl, by simp, hd⟩
  · exact .inl ⟨by simp [argumentBytes], _, _, rest, rfl, fun _ => rfl, by simp, hd⟩
  · exact .inl ⟨by simp [argumentBytes], _, _, rest, rfl, fun _ => rfl, by simp, hd⟩
  · exact .inl ⟨by simp [argumentBytes], _, _, rest, rfl, fun _ => rfl, by simp, hd⟩
  · exact .inr hmissing

/-- What the decoder takes is the encoding of what it answers: no other bytes stand for the command (R55, R63). -/
theorem decodeCommand_sound {bs rest : List Byte} {i : Instr} (h : decodeCommand bs = .ok (i, rest)) :
    i.WellFormed = true ∧ ∃ cmd : List Byte, (∀ sync, encode sync i = .command cmd) ∧ bs = cmd ++ rest := by
  cases bs with
  | nil => cases h
  | cons c args =>
    rcases decodeCommand_cons c args with ⟨-, j, cmd, q, hwf, henc, hbytes, hd⟩ | ⟨-, hd⟩
    · cases hd.symm.trans h
      exact ⟨hwf, cmd, henc, hbytes⟩
    · cases hd.symm.trans h

/-! ### Where the decoder waits -/

/-- The decoder reports that there is no code byte exactly where there is no byte. -/
theorem decodeCommand_noCode_iff (bs : List Byte) : decodeCommand bs = .error .noCode ↔ bs = [] := by
  constructor
  · intro h
    cases bs with
    | nil => rfl
    | cons c args =>
      rcases decodeCommand_cons c args with ⟨-, j, cmd, q, -, -, -, hd⟩ | ⟨-, hd⟩ <;> cases hd.symm.trans h
  · rintro rfl
    rfl

/-- The decoder reports a missing argument exactly where fewer bytes follow the code byte than its format has (R153). -/
theorem decodeCommand_argumentMissing_iff (bs : List Byte) (c : Byte) (n : Nat) :
    decodeCommand bs = .error (.argumentMissing c n) ↔
      ∃ args : List Byte, bs = c :: args ∧ args.length < argumentBytes c ∧ n = argumentBytes c - args.length := by
  constructor
  · intro h
    cases bs with
    | nil => cases h
    | cons c' args =>
      rcases decodeCommand_cons c' args with ⟨-, j, cmd, q, -, -, -, hd⟩ | ⟨hlt, hd⟩
      · cases hd.symm.trans h
      · cases hd.symm.trans h
        exact ⟨args, rfl, hlt, rfl⟩
  · rintro ⟨args, rfl, hlt, rfl⟩
    rcases decodeCommand_cons c args with ⟨hle, -⟩ | ⟨-, hd⟩
    · omega
    · exact hd

/-- On a byte sequence that is not empty the one error is a missing argument. -/
theorem decodeCommand_error_of_ne_nil {bs : List Byte} {e : DecodeError} (hne : bs ≠ [])
    (h : decodeCommand bs = .error e) : ∃ c n, decodeCommand bs = .error (.argumentMissing c n) := by
  cases e with
  | noCode => exact absurd ((decodeCommand_noCode_iff bs).mp h) hne
  | argumentMissing c n => exact ⟨c, n, h⟩

/-! ### The obligations -/

/-- Settles O1: `decode_encode` for both encodings, with bytes behind a command by `decodeCommand_encode`, and the data
bytes of `L` by `decodeCommand_encodeLoad`. -/
theorem decodeInvertsEncode : Obligations.DecodeInvertsEncode := by
  unfold Obligations.DecodeInvertsEncode
  exact ⟨fun sync _ => decode_encode sync, fun _ _ _ rest => decodeCommand_encode rest,
    fun addr data rest hlen => ⟨_, loadSize_toNat hlen, decodeCommand_encodeLoad addr data rest⟩⟩

/-- Settles O2, by the cases of the decoder's answer. -/
theorem decodedCommandEncodesBack : Obligations.DecodedCommandEncodesBack := by
  unfold Obligations.DecodedCommandEncodesBack
  exact fun _ _ _ => decodeCommand_sound

/-- Settles O3: the two error answers of the decoder, each with the sequences that have it (R56, R64). -/
theorem decoderWaitsForMissingArguments : Obligations.DecoderWaitsForMissingArguments := by
  unfold Obligations.DecoderWaitsForMissingArguments
  exact ⟨decodeCommand_noCode_iff, decodeCommand_argumentMissing_iff⟩

/-- Settles O4: each sequence is one of the decoder's formats with its fields computed. -/
theorem writtenOutWordsDecode : Obligations.WrittenOutWordsDecode := by
  unfold Obligations.WrittenOutWordsDecode
  exact ⟨rfl, rfl, rfl, rfl, rfl, rfl⟩

/-- Settles O60: every constructor's own length law (R55, R63). -/
theorem fixedLengthsOfAllFormats : Obligations.FixedLengthsOfAllFormats := by
  unfold Obligations.FixedLengthsOfAllFormats
  intro i
  cases i with
  | reset => exact Laws.FixedLength.reset
  | halt => exact Laws.FixedLength.halt
  | cont => exact Laws.FixedLength.cont
  | stepOne => exact Laws.FixedLength.stepOne
  | write a d => exact Laws.FixedLength.write a d
  | read a => exact Laws.FixedLength.read a
  | load a n => exact Laws.FixedLength.load a n
  | setBreakpoint a => exact Laws.FixedLength.setBreakpoint a
  | getRegisters => exact Laws.FixedLength.getRegisters
  | unknown c => exact Laws.FixedLength.unknown c
  | busBpHit a rnw => exact Laws.FixedLength.busBpHit a rnw
  | busRead a => exact Laws.FixedLength.busRead a
  | busWrite a => exact Laws.FixedLength.busWrite a

end Sys2Proof

/-! ## The store: extensionality of the canonical form, and the laws of sequences of writes (R39, R75 to R77) -/

namespace Sys2Proof.Machine

variable {s : State}

/-! ### The canonical form is canonical -/

theorem read_head (k : Nat) (v : Byte) (m : Memory) : Memory.read ((k, v) :: m) k = v := by simp [Memory.read]

theorem read_tail {k a : Nat} (v : Byte) (m : Memory) (h : a ≠ k) : Memory.read ((k, v) :: m) a = m.read a := by
  rw [Memory.read, if_neg h.symm]

/-- Of two memories in form that read alike, neither lists a first address that lies below the first one of the other.
-/
theorem head_not_below {k l : Nat} {v w : Byte} {m n : Memory} (hm : Memory.wf ((k, v) :: m))
    (hn : Memory.wf ((l, w) :: n)) (hread : ∀ a, Memory.read ((k, v) :: m) a = Memory.read ((l, w) :: n) a) :
    ¬ k < l := by
  intro hkl
  have hbelow : Memory.read ((l, w) :: n) k = Memory.unlisted := read_below fun c hc => by
    rcases List.mem_cons.mp hc with rfl | hc
    · exact hkl
    · exact hkl.trans (wf_lt hn c hc)
  rw [← hread, read_head] at hbelow
  exact wf_head hm hbelow

/-- A memory that lists a cell in form does not read as the empty one. -/
theorem cons_not_read_as_nil {k : Nat} {v : Byte} {m : Memory} (h : Memory.wf ((k, v) :: m)) :
    Memory.read ((k, v) :: m) k ≠ Memory.read [] k := by
  rw [read_head]
  exact wf_head h

theorem memory_ext {m n : Memory} (hm : m.wf) (hn : n.wf) (hread : ∀ a, m.read a = n.read a) : m = n := by
  induction m generalizing n with
  | nil =>
    cases n with
    | nil => rfl
    | cons d n => exact absurd (hread d.1).symm (cons_not_read_as_nil hn)
  | cons c m ih =>
    obtain ⟨k, v⟩ := c
    cases n with
    | nil => exact absurd (hread k) (cons_not_read_as_nil hm)
    | cons d n =>
      obtain ⟨l, w⟩ := d
      have hkl : k = l := Nat.le_antisymm (Nat.not_lt.mp (head_not_below hn hm fun a => (hread a).symm))
        (Nat.not_lt.mp (head_not_below hm hn hread))
      subst hkl
      have hvw : v = w := by simpa only [read_head] using hread k
      subst hvw
      refine congrArg _ (ih (wf_tail hm) (wf_tail hn) fun a => ?_)
      by_cases ha : a = k
      · rw [ha, read_below (wf_lt hm), read_below (wf_lt hn)]
      · simpa only [read_tail v _ ha] using hread a

/-! ### Sequences of writes -/

/-- Of two writes to one address the later one stays. -/
theorem write_write_same {m : Memory} (h : m.wf) (a : Nat) (v w : Byte) : (m.write a v).write a w = m.write a w := by
  have hv := wf_write h a v
  refine memory_ext (wf_write hv a w) (wf_write h a w) fun b => ?_
  by_cases hb : b = a
  · rw [hb, read_write_same hv, read_write_same h]
  · rw [read_write_other hv w hb, read_write_other h v hb, read_write_other h w hb]

/-- Writes to different addresses commute. -/
theorem write_comm {m : Memory} (h : m.wf) {a b : Nat} (v w : Byte) (hab : a ≠ b) :
    (m.write b w).write a v = (m.write a v).write b w := by
  have ha := wf_write h a v
  have hb := wf_write h b w
  refine memory_ext (wf_write hb a v) (wf_write ha b w) fun c => ?_
  simp only [read_write ha, read_write hb, read_write h]
  by_cases hca : c = a
  · rw [if_pos hca, if_neg (by omega), if_pos hca]
  · rw [if_neg hca, if_neg hca]

/-- The state after `memWrite`, whatever the address. -/
theorem memWrite_state (a : Addr) (b : Byte) (s : State) :
    (memWrite a b s).1 =
      { s with mem := if a.toNat < s.cfg.memSize then s.mem.write a.toNat b else s.mem } := by
  rw [memWrite_eq]
  split <;> rfl

theorem memRead_memWrite_same {a : Addr} (b : Byte) (hwf : s.mem.wf) (hvalid : a.toNat < s.cfg.memSize) :
    memRead a (memWrite a b s).1 = (b, true) := by
  rw [memWrite_state, memRead_eq]
  simp only [if_pos hvalid, read_write_same hwf]

theorem memRead_memWrite_other {a a' : Addr} (b : Byte) (hwf : s.mem.wf) (hne : a ≠ a') :
    memRead a' (memWrite a b s).1 = memRead a' s := by
  have haddr : a'.toNat ≠ a.toNat := fun h => hne (BitVec.eq_of_toNat_eq h.symm)
  rw [memWrite_state, memRead_eq, memRead_eq]
  by_cases ha : a.toNat < s.cfg.memSize
  · simp only [if_pos ha, read_write_other hwf b haddr]
  · simp only [if_neg ha]

theorem memWrite_twice (a : Addr) (b : Byte) (hwf : s.mem.wf) :
    (memWrite a b (memWrite a b s).1).1 = (memWrite a b s).1 := by
  by_cases ha : a.toNat < s.cfg.memSize
  · simp only [memWrite_state, if_pos ha, write_write_same hwf]
  · simp only [memWrite_state, if_neg ha]

theorem memWrite_comm {a a' : Addr} (b b' : Byte) (hwf : s.mem.wf) (hne : a ≠ a') :
    (memWrite a b (memWrite a' b' s).1).1 = (memWrite a' b' (memWrite a b s).1).1 := by
  have haddr : a.toNat ≠ a'.toNat := fun h => hne (BitVec.eq_of_toNat_eq h)
  simp only [memWrite_state]
  by_cases ha : a.toNat < s.cfg.memSize
  · by_cases ha' : a'.toNat < s.cfg.memSize
    · simp only [if_pos ha, if_pos ha', write_comm hwf b b' haddr]
    · simp only [if_pos ha, if_neg ha']
  · simp only [if_neg ha]

/-! ### The bus write -/

/-- `BUS.WRITE`: the sampled byte stored where the address is of the store, nothing stored otherwise (R89, D22). -/
theorem exec_busWrite (a : Addr) (s : State) :
    exec (.busWrite a) s = .next { s with
      doe := false, trace := s.trace ++ [.release],
      mem := if a.toNat < s.cfg.memSize then s.mem.write a.toNat s.lines.data else s.mem } := by
  have hexec : exec (.busWrite a) s = .next (serveWrite a s) := rfl
  rw [hexec, serveWrite_eq]

/-- `M` of a cell whose byte is known answers that byte (R126). -/
theorem exec_read_stored {a : Addr} {b : Byte} (hvalid : a.toNat < s.cfg.memSize) (hb : s.mem.read a.toNat = b) :
    exec (.read a) s = .next (sendResponse [b] s) := by
  rw [exec_read_valid hvalid, hb]

/-! ### The checksum -/

theorem checksum_cons_fold (b : Byte) (bs : List Byte) :
    checksum (b :: bs) = bs.foldl (fun c b => c ^^^ b) (0#8 ^^^ b) := rfl

/-- The exclusive OR of bytes into a start value is the start value with their exclusive OR. -/
theorem foldl_xor (c : Byte) (bs : List Byte) : bs.foldl (fun c b => c ^^^ b) c = c ^^^ checksum bs := by
  induction bs generalizing c with
  | nil => exact BitVec.xor_zero.symm
  | cons b bs ih => rw [List.foldl_cons, ih, checksum_cons_fold, ih, BitVec.zero_xor, BitVec.xor_assoc]

@[simp] theorem checksum_nil : checksum [] = 0 := rfl

theorem checksum_cons (b : Byte) (bs : List Byte) : checksum (b :: bs) = b ^^^ checksum bs := by
  rw [checksum_cons_fold, foldl_xor, BitVec.zero_xor]

theorem checksum_append (as bs : List Byte) : checksum (as ++ bs) = checksum as ^^^ checksum bs := by
  rw [checksum, List.foldl_append, foldl_xor]
  exact rfl

theorem checksum_perm {as bs : List Byte} (h : as.Perm bs) : checksum as = checksum bs := by
  induction h with
  | nil => rfl
  | cons b _ ih => rw [checksum_cons, checksum_cons, ih]
  | swap a b cs => simp only [checksum_cons, ← BitVec.xor_assoc, BitVec.xor_comm a b]
  | trans _ _ ih₁ ih₂ => exact ih₁.trans ih₂

/-! ### The obligations -/

/-- Settles O9: the laws of `memWrite` and `memRead` over two operations, from those of `Memory.write`. -/
theorem storeSequenceLaws : Obligations.StoreSequenceLaws := by
  unfold Obligations.StoreSequenceLaws
  intro s a a' b b' hwf
  exact ⟨memRead_memWrite_same b hwf, fun hinvalid => by rw [memWrite_invalid b hinvalid, memRead_invalid hinvalid],
    memWrite_twice a b hwf, memRead_memWrite_other b hwf, memWrite_comm b b' hwf⟩

/-- Settles O10, by comparing the first listed cells (log entry 1). -/
theorem canonicalMemoriesAreExtensional : Obligations.CanonicalMemoriesAreExtensional := by
  unfold Obligations.CanonicalMemoriesAreExtensional
  exact fun _ _ => memory_ext

/-- Settles O13: the checksum of a head, of a concatenation, and of a permutation (R82). -/
theorem checksumIsXorOfBytes : Obligations.ChecksumIsXorOfBytes := by
  unfold Obligations.ChecksumIsXorOfBytes
  exact ⟨checksum_nil, checksum_cons, checksum_append, fun _ _ => checksum_perm⟩

/-- Settles O15: `exec_busWrite` at an address of the store and at any other. -/
theorem busWriteStoresSampledByte : Obligations.BusWriteStoresSampledByte := by
  unfold Obligations.BusWriteStoresSampledByte
  intro s a hwf
  refine ⟨_, exec_busWrite a s, fun hvalid => ?_, fun hinvalid => if_neg (Nat.not_lt.mpr hinvalid)⟩
  rw [if_pos hvalid]
  exact ⟨wf_write hwf _ _, read_write_same hwf _ _, fun _ hk => read_write_other hwf _ hk⟩

/-- Settles O42: a served read of the cell that `W` has set, and an `M` of the cell that the bus has set. -/
theorem hostAndBusSeeOneStore : Obligations.HostAndBusSeeOneStore := by
  unfold Obligations.HostAndBusSeeOneStore
  intro s t a hwf hvalid
  refine ⟨fun d c ht => ?_, fun ht => ?_⟩
  · obtain ⟨-, -, -, hserved⟩ := writeCommandStoresAndAnswers s a d hwf
    exact hserved t c hvalid ht
  · cases (exec_busWrite a s).symm.trans ht
    refine exec_read_stored hvalid ?_
    rw [if_pos hvalid, read_write_same hwf]

end Sys2Proof.Machine

/-! ## Responses: what a delayed one sends in the end, and what a text is made of (R4, R8, R71) -/

namespace Sys2Proof.Machine

variable {s : State}

/-- A response that has not ended waits because the channel had no room for all of it. -/
theorem room_of_sendResponse_waits {bs : List Byte} (h : (sendResponse bs s).phase ≠ .atLoop) :
    ∃ n, s.txRoom = some n ∧ n < bs.length := by
  cases hroom : s.txRoom with
  | none => rw [sendResponse_ready bs hroom] at h; exact absurd rfl h
  | some n =>
    refine ⟨n, rfl, Nat.lt_of_not_le fun hl => ?_⟩
    rw [sendResponse_fits bs hroom hl] at h
    exact h rfl

/-- A response that waited for the channel ends, once the channel accepts every byte, in the state of one that found it
ready. -/
theorem advance_delayed_response {bs : List Byte} (h : (sendResponse bs s).phase ≠ .atLoop) :
    advance { sendResponse bs s with txRoom := none } = .next (sendResponse bs { s with txRoom := none }) := by
  obtain ⟨n, hroom, hn⟩ := room_of_sendResponse_waits h
  rw [sendResponse_waits bs hroom hn, advance_responding rfl, sendResponse_ready _ rfl, sendResponse_ready _ rfl]
  simp only [List.append_assoc, ← List.map_append, List.take_append_drop]

theorem newlineBytes_length : newlineBytes.length = 1 ∨ newlineBytes.length = 2 := by
  cases h : Config.newlineSecond with
  | none => exact .inl (by simp [newlineBytes, h])
  | some b => exact .inr (by simp [newlineBytes, h])

/-! ### The obligations -/

/-- Settles O22: a response for each room of the channel. -/
theorem responseIsSentAsTheChannelAccepts : Obligations.ResponseIsSentAsTheChannelAccepts := by
  unfold Obligations.ResponseIsSentAsTheChannelAccepts
  exact fun bs s => ⟨sendResponse_ready bs, fun _ => sendResponse_fits bs, fun _ => sendResponse_waits bs, fun _ => rfl⟩

/-- Settles O23: the bytes sent before and after the wait are together the response. -/
theorem delayedResponseEndsAlike : Obligations.DelayedResponseEndsAlike := by
  unfold Obligations.DelayedResponseEndsAlike
  exact fun _ _ => advance_delayed_response

/-- Settles O24: a text is its body with `NEWLINE`, and all its bytes are widened from seven bits. -/
theorem textsAreAsciiLines : Obligations.TextsAreAsciiLines := by
  unfold Obligations.TextsAreAsciiLines
  exact ⟨newlineBytes_length, fun t => ⟨⟨_, rfl⟩, textBytes_ascii t⟩⟩

end Sys2Proof.Machine

/-! ## Commands taken by a step: R (R115), S (R118), B (R140), and what has arrived of a command (R150, R153) -/

namespace Sys2Proof.Machine

variable {s : State}

/-! ### Taking a command -/

theorem takeCommand_of_decode {got rest : List Byte} {i : Instr} (h : decodeCommand (got ++ s.rxq) = .ok (i, rest)) :
    takeCommand got s = exec i { s with rxq := rest, phase := .atLoop } := by
  simp [takeCommand, h]

theorem takeCommand_of_error {got : List Byte} {e : DecodeError} (h : decodeCommand (got ++ s.rxq) = .error e) :
    takeCommand got s = .next { s with rxq := [], phase := .receiving (got ++ s.rxq) } := by
  simp [takeCommand, h]

/-- With a byte waiting, an iteration of the main loop takes a command (R150). -/
theorem mainLoop_of_bytes (h : s.rxq ≠ []) : mainLoop s = takeCommand [] s := by
  obtain ⟨b, q, hq⟩ := List.exists_cons_of_ne_nil h
  simp [mainLoop, hq]

theorem ne_nil_of_decode_ok {bs rest : List Byte} {i : Instr} (h : decodeCommand bs = .ok (i, rest)) : bs ≠ [] := by
  rintro rfl
  cases h

theorem ne_nil_of_argumentMissing {bs : List Byte} {c : Byte} {n : Nat}
    (h : decodeCommand bs = .error (.argumentMissing c n)) : bs ≠ [] := by
  rintro rfl
  cases h

/-- Inside a command a step goes on taking it. -/
theorem step_receiving {got : List Byte} (hp : s.phase = .receiving got) : step s = takeCommand got (pollHost s) := by
  rw [step_eq, advance_receiving ((pollHost_phase s).trans hp)]

/-- At the top of the main loop a command with a missing argument is taken as far as it has arrived (R153). -/
theorem step_of_incomplete {c : Byte} {n : Nat} (hp : s.phase = .atLoop)
    (h : decodeCommand (pollHost s).rxq = .error (.argumentMissing c n)) :
    step s = .next { pollHost s with rxq := [], phase := .receiving (pollHost s).rxq } := by
  rw [step_atLoop hp, mainLoop_of_bytes (ne_nil_of_argumentMissing h), takeCommand_of_error (got := []) h]
  rfl

/-- A command taken in parts runs as one whose bytes are all in the queue (R153, D17). -/
theorem advance_receiving_eq_atLoop {got later rest : List Byte} {i : Instr} (s : State)
    (h : decodeCommand (got ++ later) = .ok (i, rest)) :
    advance { s with phase := .receiving got, rxq := later } =
      advance { s with phase := .atLoop, rxq := got ++ later } := by
  rw [advance_receiving rfl, advance_atLoop rfl, mainLoop_of_bytes (ne_nil_of_decode_ok h), takeCommand_of_decode h]
  exact (takeCommand_of_decode (got := []) (s := { s with phase := .atLoop, rxq := got ++ later }) h).symm

/-! ### The table's command -/

theorem exec_setBreakpoint_room (a : Addr) (h : bpCount s < s.cfg.bpCapacity) :
    exec (.setBreakpoint a) s = .next (respond (.statusBreakpoint a) { s with bps := s.bps ++ [a] }) := by
  simp [exec, execSetBreakpoint, bpAdd, h]

theorem exec_setBreakpoint_full (a : Addr) (h : s.cfg.bpCapacity ≤ bpCount s) :
    exec (.setBreakpoint a) s = .next (raiseError (.breakpointTableFull a) s) := by
  simp [exec, execSetBreakpoint, bpAdd, Nat.not_lt.mpr h]

/-! ### The frame of `R` -/

/-- `R` as one update: what the pulse and the change of `RUN` write, and what its response has sent. -/
theorem exec_reset_spec (s : State) :
    ∃ sent room p, exec .reset s = .next { s with
      run := .running, rstn := true, txq := s.txq ++ sent, txRoom := room, phase := p,
      trace := s.trace ++ [.resetLow, .resetHigh] ++ sent.map Event.tx } := by
  obtain ⟨sent, rest, room, -, h⟩ := sendResponse_spec (textBytes .statusReset)
    { s with run := .running, rstn := true, trace := s.trace ++ [.resetLow, .resetHigh] }
  exact ⟨sent, room, _, (exec_reset s).trans (congrArg Host.Outcome.next h)⟩

/-! ### The obligations -/

/-- Settles O26: `exec_reset`, and the byte 0x52 in the decoder (R115). -/
theorem resetCommandPulsesAndRuns : Obligations.ResetCommandPulsesAndRuns := by
  unfold Obligations.ResetCommandPulsesAndRuns
  exact ⟨exec_reset, fun s rest hp hq => step_of_command hp (hq ▸ decodeCommand_reset rest)⟩

/-- Settles O27: the fields that `exec_reset_spec` does not write; the table by `step_bps_grows`. -/
theorem resetCommandKeepsBlockState : Obligations.ResetCommandKeepsBlockState := by
  unfold Obligations.ResetCommandKeepsBlockState
  refine ⟨fun s => ?_, fun s t => step_bps_grows⟩
  obtain ⟨sent, room, p, h⟩ := exec_reset_spec s
  exact ⟨_, h, rfl, rfl, rfl, rfl, rfl, rfl, rfl, rfl, rfl, rfl, sent, rfl⟩

/-- Settles O30: `exec_stepOne`, and the byte 0x53 in the decoder (R118). -/
theorem stepCommandEntersTheLoop : Obligations.StepCommandEntersTheLoop := by
  unfold Obligations.StepCommandEntersTheLoop
  exact ⟨exec_stepOne, fun s rest hp hq => step_of_command hp (hq ▸ decodeCommand_stepOne rest)⟩

/-- Settles O43: the two outcomes of `B`, and its three bytes in the decoder (R140). -/
theorem setBreakpointAppends : Obligations.SetBreakpointAppends := by
  unfold Obligations.SetBreakpointAppends
  exact fun s a => ⟨exec_setBreakpoint_room a, fun hfull => exec_setBreakpoint_full a hfull.ge,
    fun rest hp hq => step_of_command hp (hq ▸ decodeCommand_encoded_setBreakpoint a rest)⟩

/-- Settles O46: the step at the top of the main loop, inside a command, and with a bus cycle to serve (R150). -/
theorem stepRunsDecodedInstruction : Obligations.StepRunsDecodedInstruction := by
  unfold Obligations.StepRunsDecodedInstruction
  refine ⟨fun s i rest hp hd => step_of_command hp hd, fun s got i rest hp hd => ?_, fun s hp hq hr => ?_⟩
  · rw [step_receiving hp, takeCommand_of_decode hd]
  · exact (step_atLoop hp).trans (mainLoop_of_running hq ((pollHost_run s).trans hr))

/-- Settles O48: what has arrived is taken, and what is then complete runs as from the queue (D17). -/
theorem incompleteCommandIsTaken : Obligations.IncompleteCommandIsTaken := by
  unfold Obligations.IncompleteCommandIsTaken
  refine ⟨fun s c n => step_of_incomplete, fun s got c n hp hd => ?_, fun s got later i rest =>
    advance_receiving_eq_atLoop s⟩
  rw [step_receiving hp, takeCommand_of_error hd]

end Sys2Proof.Machine

/-! ## Idling and waiting: the host's turn alone passes (R150, R153, R156) -/

namespace Sys2Proof.Machine

variable {s : State}

/-- The block is idle or lacks a byte: nothing but a byte of the host makes it go on. -/
def AtRest (s : State) : Prop := Quiescent s ∨ AwaitsByte s

/-- Where the block waits for a byte it is inside a command. -/
theorem AwaitsByte.phase_ne_atLoop (h : AwaitsByte s) : s.phase ≠ .atLoop := by
  intro hp
  simp [AwaitsByte, hp] at h

/-- What the block is waiting for does not depend on the host's script or on the channel's room. -/
theorem AtRest.of_environment (h : AtRest s) (room : Option Nat) (hs : List HostTurn) :
    AtRest { s with txRoom := room, hostIn := hs } := h

/-- The thread of control at rest goes no further. -/
theorem AtRest.advance_eq (h : AtRest s) : advance s = .next s := by
  rcases h with ⟨hp, hr, hq⟩ | ⟨hq, hw⟩
  · rw [advance_atLoop hp, mainLoop_of_halted hq hr]
  · cases hp : s.phase with
    | receiving got =>
      simp only [hp] at hw
      obtain ⟨c, n, hd⟩ := hw
      rw [advance_receiving hp, takeCommand_of_error (by rwa [hq, List.append_nil]), hq, List.append_nil, ← hp, ← hq]
    | loading a i left =>
      simp only [hp] at hw
      obtain ⟨n, rfl⟩ := Nat.exists_eq_add_one.mpr hw
      rw [advance_loading hp, loadBytes_nil a n i hq, ← hp]
    | draining a i left =>
      simp only [hp] at hw
      rcases drainLoad_spec a i left s with ⟨-, he⟩ | ⟨hle, -⟩
      · rw [advance_draining hp, he, hq, List.length_nil, Nat.sub_zero, ← hp, ← hq]
      · simp [hq] at hle; omega
    | atLoop | stepping | responding | notifying => simp [hp] at hw

/-- A turn in which the host sends nothing moves its script on and sets the room. -/
theorem pollHost_silent {h : HostTurn} {hs : List HostTurn} (hin : s.hostIn = h :: hs) (hsends : h.sends = []) :
    pollHost s = { s with hostIn := hs, txRoom := h.room } := by
  rw [pollHost_script hin, hsends, List.append_nil]

/-- While the host sends nothing, the block at rest stays as it is. -/
theorem AtRest.runSteps_eq {turns later : List HostTurn} (h : AtRest s) (hin : s.hostIn = turns ++ later)
    (hsilent : ∀ t ∈ turns, t.sends = []) :
    ∃ room, runSteps turns.length s = .next { s with hostIn := later, txRoom := room } := by
  induction turns generalizing s with
  | nil => exact ⟨s.txRoom, by rw [← List.nil_append later, ← hin]; rfl⟩
  | cons t ts ih =>
    rw [List.cons_append] at hin
    have hrest := h.of_environment t.room (ts ++ later)
    have hstep : step s = .next { s with txRoom := t.room, hostIn := ts ++ later } := by
      rw [step_eq, pollHost_silent hin (hsilent t List.mem_cons_self), hrest.advance_eq]
    obtain ⟨room, hrun⟩ := ih hrest rfl fun u hu => hsilent u (List.mem_cons_of_mem _ hu)
    exact ⟨room, (runSteps_succ _ hstep).trans hrun⟩

theorem atRunEnd_of_quiescent (left : Nat) (h : Quiescent s) (hsilent : ∀ t ∈ s.hostIn, t.sends = []) :
    atRunEnd left s = true := by
  obtain ⟨hp, hr, hq⟩ := h
  exact (atRunEnd_iff left s).mpr ⟨hsilent, hq, hp, .inl hr⟩

/-- A run in which every state reached within the fuel is off the top of the main loop has no end (R156). -/
theorem finiteRun_eq_none {fuel : Nat} (left : Nat)
    (h : ∀ k, k ≤ fuel → ∀ u, runSteps k s = .next u → u.phase ≠ .atLoop) : finiteRun fuel left s = none := by
  cases hrun : finiteRun fuel left s with
  | none => rfl
  | some u =>
    obtain ⟨k, l, hk, -, hu, hend⟩ := finiteRun_spec fuel left s u hrun
    obtain ⟨-, -, hp, -⟩ := (atRunEnd_iff l u).mp hend
    exact absurd hp (h k hk u hu)

/-! ### The obligation -/

/-- Settles O47: at rest the thread of control goes no further, so that only the host's turns pass; quiescent is an
end of a finite run, and waiting for a byte is none. -/
theorem idleAndWaitingChangeNothing : Obligations.IdleAndWaitingChangeNothing := by
  unfold Obligations.IdleAndWaitingChangeNothing
  refine ⟨fun s hrest => ⟨AtRest.advance_eq hrest, ?_⟩, fun s turns later hrest hin hsilent =>
    AtRest.runSteps_eq hrest hin hsilent, fun s fuel left hsilent => ⟨fun hq => ?_, fun hw hfuel => ?_⟩⟩
  · obtain ⟨bs, room, ts, n, h⟩ := pollHost_spec s
    rw [h]
  · exact finiteRun_end fuel left (atRunEnd_of_quiescent left hq hsilent)
  · refine finiteRun_eq_none left fun k hk u hu => ?_
    obtain ⟨room, hrun⟩ := AtRest.runSteps_eq (.inr hw) (List.take_append_drop k s.hostIn).symm
      fun t ht => hsilent t (List.mem_of_mem_take ht)
    rw [List.length_take_of_le (by omega)] at hrun
    cases hrun.symm.trans hu
    exact hw.phase_ne_atLoop

end Sys2Proof.Machine

/-! ## The bus responder: the breakpoint stop and its notification (R87, R165), and SYNC (R91) -/

namespace Sys2Proof.Machine

variable {s t : State}

/-! ### The breakpoint stop for each room of the channel -/

/-- The breakpoint stop on a channel that accepts at least the whole notification. -/
theorem debugStop_fits (a : Addr) (rnw : Bool) {n : Nat} (h : s.txRoom = some n)
    (hl : (textBytes (.breakpointReached a)).length ≤ n) :
    debugStop a rnw s = endHit a rnw { setHalted s with
      txRoom := some (n - (textBytes (.breakpointReached a)).length),
      txq := s.txq ++ textBytes (.breakpointReached a),
      trace := s.trace ++ (textBytes (.breakpointReached a)).map Event.tx } := by
  have hd : (textBytes (.breakpointReached a)).drop n = [] := by simp [hl]
  unfold debugStop
  rw [transmit_room (s := setHalted s) _ (n := n) h]
  simp only [hd, List.take_of_length_le hl]
  rfl

/-- The end of a hit is a release, and after it the bus write where a hit commits one (D4). -/
theorem endHit_outcome (a : Addr) (rnw : Bool) (s : State) :
    Host.Outcome.next (endHit a rnw s) =
      (if s.cfg.bpHitCommitsWrite = true ∧ rnw = false then exec (.busWrite a) (releaseData s)
        else .next (releaseData s) : Host.Outcome State Fault Refusal) := by
  rw [endHit_eq]
  by_cases h : s.cfg.bpHitCommitsWrite = true ∧ rnw = false
  · rw [if_pos h, if_pos h]
    rfl
  · rw [if_neg h, if_neg h]

/-- The end of a hit carries the place of the thread of control through. -/
theorem endHit_with_phase (p : Phase) (a : Addr) (rnw : Bool) (s : State) :
    endHit a rnw { s with phase := p } = { endHit a rnw s with phase := p } := by
  rw [endHit_eq, endHit_eq]
  by_cases h : s.cfg.bpHitCommitsWrite = true ∧ rnw = false
  · rw [if_pos h, if_pos h, serveWrite_eq, serveWrite_eq]
    rfl
  · rw [if_neg h, if_neg h]
    rfl

@[simp] theorem endHit_run (a : Addr) (rnw : Bool) (s : State) : (endHit a rnw s).run = s.run := by
  obtain ⟨es, m, h, -, -⟩ := endHit_spec a rnw s
  rw [h]

/-- The breakpoint stop is Halted, whether it has ended or waits in its notification (R87). -/
@[simp] theorem debugStop_run (a : Addr) (rnw : Bool) (s : State) : (debugStop a rnw s).run = .halted := by
  obtain ⟨sent, room, ⟨-, h⟩ | ⟨rest, -, -, h⟩⟩ := debugStop_cases a rnw s
  · rw [h, endHit_run, setHalted_run]
  · rw [h, setHalted_run]

/-! ### A delayed notification -/

/-- A stop that has not come back to where it began waits because the channel had no room for all of its notification.
-/
theorem room_of_debugStop_waits {a : Addr} {rnw : Bool} {n : Nat} (hroom : s.txRoom = some n)
    (h : (debugStop a rnw s).phase ≠ s.phase) : n < (textBytes (.breakpointReached a)).length := by
  refine Nat.lt_of_not_le fun hl => h ?_
  rw [debugStop_fits a rnw hroom hl, endHit_phase, setHalted_phase]

/-- The rest of a notification on a channel that accepts every byte: the hit ends, and control goes back to the loop
it came from (R87, R106). -/
theorem resumeNotification_ready (bs : List Byte) (a : Addr) (rnw inStep : Bool) (h : s.txRoom = none) :
    resumeNotification bs a rnw inStep s =
      if inStep then controllerTransition (endHit a rnw { deliver bs s with phase := .stepping })
      else endHit a rnw { deliver bs s with phase := .atLoop } := by
  rw [endHit_with_phase .stepping, endHit_with_phase .atLoop]
  unfold resumeNotification
  rw [transmit_ready bs h]

/-- A notification that waited, once the channel accepts every byte: the stop ends as one that did not wait. -/
theorem advance_delayed_debugStop {a : Addr} {rnw : Bool} {n : Nat} (hroom : s.txRoom = some n)
    (h : (debugStop a rnw s).phase ≠ s.phase) :
    advance { debugStop a rnw s with txRoom := none } =
      .next (if s.phase.inStep then
        controllerTransition (debugStop a rnw { s with txRoom := none, phase := .stepping })
        else debugStop a rnw { s with txRoom := none, phase := .atLoop }) := by
  have hready := fun p => debugStop_ready a rnw (s := { s with txRoom := none, phase := p }) rfl
  rw [debugStop_waits a rnw hroom (room_of_debugStop_waits hroom h), advance_notifying rfl,
    resumeNotification_ready _ _ _ _ rfl, hready, hready]
  simp only [deliver, setHalted, List.append_assoc, ← List.map_append, List.take_append_drop]

/-! ### The lines of the CPU in an invocation -/

/-- One invocation for a given answer of the CPU: the operation that the table and the answer select. -/
theorem serveCycle_eq (c : BusLines) (s : State) :
    serveCycle c s = exec (selectOperation (bpContains c.sample.addr s) c.sample) { s with lines := c } := rfl

theorem serveCycle_of_hit {c : BusLines} (h : c.sample.addr ∈ s.bps) :
    serveCycle c s = exec (.busBpHit c.sample.addr c.sample.rnw) { s with lines := c } := by
  rw [serveCycle_eq, (bpContains_iff_mem _ s).mpr h, selectOperation_hit]

theorem transmit_with_lines (l : BusLines) (bs : List Byte) (s : State) :
    transmit bs { s with lines := l } = ({ (transmit bs s).1 with lines := l }, (transmit bs s).2) := by
  rcases Option.eq_none_or_eq_some s.txRoom with h | ⟨n, h⟩
  · rw [transmit_ready bs h, transmit_ready bs (s := { s with lines := l }) h]
    rfl
  · rw [transmit_room bs h, transmit_room bs (s := { s with lines := l }) h]
    rfl

/-- Of the lines the end of a hit reads the data byte only. -/
theorem endHit_with_lines {l : BusLines} (hdata : l.data = s.lines.data) (a : Addr) (rnw : Bool) :
    endHit a rnw { s with lines := l } = { endHit a rnw s with lines := l } := by
  rw [endHit_eq, endHit_eq]
  by_cases h : s.cfg.bpHitCommitsWrite = true ∧ rnw = false
  · rw [if_pos h, if_pos h, serveWrite_eq, serveWrite_eq]
    simp only [releaseData, record, hdata]
    rfl
  · rw [if_neg h, if_neg h]
    rfl

/-- Of the lines the breakpoint stop reads the data byte only. -/
theorem debugStop_with_lines {l : BusLines} (hdata : l.data = s.lines.data) (a : Addr) (rnw : Bool) :
    debugStop a rnw { s with lines := l } = { debugStop a rnw s with lines := l } := by
  have hhalted : setHalted { s with lines := l } = { setHalted s with lines := l } := rfl
  have hlines : (transmit (textBytes (.breakpointReached a)) (setHalted s)).1.lines = s.lines := by
    obtain ⟨sent, room, -, h⟩ := transmit_spec (textBytes (.breakpointReached a)) (setHalted s)
    rw [h, setHalted_lines]
  unfold debugStop
  rw [hhalted, transmit_with_lines]
  cases hrest : (transmit (textBytes (.breakpointReached a)) (setHalted s)).2 with
  | nil => simp only [hrest]; exact endHit_with_lines (by rw [hlines, hdata]) a rnw
  | cons b rest => simp only [hrest]

/-- Once an operation is selected it reads the data byte of the lines only. -/
theorem exec_selectOperation_with_lines (hit : Bool) (b : BusSample) {l : BusLines} (hdata : l.data = s.lines.data)
    (h : exec (selectOperation hit b) s = .next t) :
    exec (selectOperation hit b) { s with lines := l } = .next { t with lines := l } := by
  cases hit with
  | true =>
    cases h
    exact congrArg Host.Outcome.next (debugStop_with_lines hdata b.addr b.rnw)
  | false =>
    cases hr : b.rnw with
    | true =>
      rw [selectOperation_of_rnw hr] at h ⊢
      cases h
      rfl
    | false =>
      rw [selectOperation_of_not_rnw hr, exec_busWrite] at h ⊢
      cases h
      rw [hdata]

/-! ### The responder inside the Step loop -/

/-- An invocation made inside a Step ends at the top of the Step loop or waits in a notification. -/
theorem busCycle_phase_of_stepping (hp : s.phase = .stepping) (h : busCycle s = .next t) :
    t.phase = .stepping ∨ ∃ bs a rnw, t.phase = .notifying bs a rnw true := by
  rw [← Phase.inStep_iff, busCycle_inStep h, hp]
  rfl

theorem afterResponder_of_stepping (h : s.phase = .stepping) : afterResponder s = controllerTransition s := by
  simp [afterResponder, h]

theorem afterResponder_of_notifying {bs : List Byte} {a : Addr} {rnw inStep : Bool}
    (h : s.phase = .notifying bs a rnw inStep) : afterResponder s = s := by
  simp [afterResponder, h]

/-! ### The obligations -/

/-- Settles O16: the three rooms of the channel by `debugStop_ready`, `debugStop_fits` and `debugStop_waits`. -/
theorem busHitHaltsAndNotifies : Obligations.BusHitHaltsAndNotifies := by
  unfold Obligations.BusHitHaltsAndNotifies
  intro s a rnw
  have hexec : exec (.busBpHit a rnw) s = .next (debugStop a rnw s) := rfl
  refine ⟨fun hroom => ?_, fun n hroom hl => ?_, fun n hroom hl => ?_⟩
  · rw [hexec, debugStop_ready a rnw hroom, endHit_outcome]
    simp [deliver, releaseData, record, setHalted, hroom]
  · rw [hexec, debugStop_fits a rnw hroom hl, endHit_outcome]
    rfl
  · rw [hexec, debugStop_waits a rnw hroom hl]

/-- Settles O17: `advance_delayed_debugStop` from the main loop and from the Step loop (D25). -/
theorem delayedNotificationEndsAlike : Obligations.DelayedNotificationEndsAlike := by
  unfold Obligations.DelayedNotificationEndsAlike
  refine ⟨fun s w a rnw n hp hroom hw hwait => ?_, fun s w u a rnw n hp hroom hw hwait hu => ?_⟩
  · cases hw
    rw [advance_delayed_debugStop hroom (by rwa [hp]), hp]
    rfl
  · cases hw
    cases hu
    rw [advance_delayed_debugStop hroom (by rwa [hp]), hp]
    rfl

/-- Settles O20: the selector does not read SYNC, and the selected operation reads the data byte of the lines only. -/
theorem responderIgnoresSync : Obligations.ResponderIgnoresSync := by
  unfold Obligations.ResponderIgnoresSync
  intro s t c sync after h c'
  exact exec_selectOperation_with_lines (s := { s with lines := c }) _ c.sample (l := c') rfl h

/-- Settles O32: an iteration is `stepIteration_of_busCycle`; the responder comes back to the loop or waits; the four
cases of the controller's table (R100 to R103). -/
theorem stepIterationOrder : Obligations.StepIterationOrder := by
  unfold Obligations.StepIterationOrder
  refine ⟨fun s hp => ?_, fun s => ?_⟩
  · obtain ⟨t, ht⟩ := busCycle_answers (clockPulse s)
    have hstep : advance s = .next (afterResponder t) := by
      rw [advance_stepping hp, stepIteration_of_busCycle ht]
    refine ⟨t, by rw [← clockPulse_eq, ht], fun hback => by rw [hstep, afterResponder_of_stepping hback],
      fun hwait => ?_⟩
    rcases busCycle_phase_of_stepping ((clockPulse_phase s).trans hp) ht with hback | ⟨bs, a, rnw, hnote⟩
    · exact absurd hback hwait
    · rw [hstep, afterResponder_of_notifying hnote]
  · rw [controllerTransition_cases]
    refine ⟨?_, ?_, ?_, ?_⟩ <;> intro hstate hsync <;> simp [hstate, hsync]

/-- Settles O59: neither the stop nor `C` changes the table, so the comparison of the later cycle finds the entry. -/
theorem hitDoesNotDisarm : Obligations.HitDoesNotDisarm := by
  unfold Obligations.HitDoesNotDisarm
  intro s t u c d hmem hserve hcont haddr
  rw [serveCycle_of_hit hmem] at hserve
  cases hserve
  cases (exec_cont _).symm.trans hcont
  refine ⟨debugStop_run _ _ _, debugStop_bps _ _ _, respond_run _ _, ?_⟩
  rw [← haddr] at hmem ⊢
  exact serveCycle_of_hit (by rwa [respond_bps, debugStop_bps])

end Sys2Proof.Machine

/-! ## The effects of a step: which elements of the block each operation writes (R10, R32) -/

namespace Sys2Proof.Machine

variable {s t u v : State}

/-! ### The updates a step is made of -/

/-- The kinds of update a machine step is made of, by what they write. -/
inductive Effect where
  /-- The environment's side: the lines, the receive queue, the channel's room, the scripts. -/
  | input
  /-- Bytes on the host channel, with their `Tx` events. -/
  | send
  /-- The place of the thread of control. -/
  | place
  /-- The store. -/
  | store
  /-- A new entry of the breakpoint table. -/
  | enter
  /-- `RUN <- Halted`. -/
  | halt
  /-- `RUN <- Running`. -/
  | goOn
  /-- `STEP`. -/
  | control
  /-- A clock pulse. -/
  | pulse
  /-- A reset pulse. -/
  | resetPulse
  /-- A byte driven on the data lines, and released again. -/
  | drive
  /-- A release of the data lines. -/
  | release
deriving DecidableEq

/-- One update of each kind, in the model's own operations. -/
inductive Update : Effect → State → State → Prop where
  | lines (s : State) (l : BusLines) (cs : List BusLines) (n : Nat) :
      Update .input s { s with lines := l, cpuIn := cs, cpuCount := n }
  | host (s : State) (q : List Byte) (room : Option Nat) (hs : List HostTurn) (n : Nat) :
      Update .input s { s with rxq := q, txRoom := room, hostIn := hs, hostCount := n }
  | send (s : State) (bs : List Byte) (room : Option Nat) : Update .send s { deliver bs s with txRoom := room }
  | place (s : State) (p : Phase) : Update .place s { s with phase := p }
  | store (s : State) (m : Memory) (hwf : s.mem.wf → m.wf)
      (hsize : (∀ c ∈ s.mem, c.1 < s.cfg.memSize) → ∀ c ∈ m, c.1 < s.cfg.memSize) :
      Update .store s { s with mem := m }
  | enter (s : State) (a : Addr) (hroom : s.bps.length < s.cfg.bpCapacity) :
      Update .enter s { s with bps := s.bps ++ [a] }
  | halt (s : State) : Update .halt s (setHalted s)
  | goOn (s : State) : Update .goOn s (setRunning s)
  | control (s : State) (c : StepState) : Update .control s (setStepState c s)
  | pulse (s : State) : Update .pulse s (clockPulse s)
  | resetPulse (s : State) : Update .resetPulse s (resetPulse s)
  | drive (s : State) (b : Byte) : Update .drive s (releaseData (driveData b s))
  | release (s : State) : Update .release s (releaseData s)

/-- From the first state to the second by updates of the given kinds only. -/
def Does (E : List Effect) : State → State → Prop := Relation.ReflTransGen fun s t => ∃ e ∈ E, Update e s t

theorem Does.refl (E : List Effect) (s : State) : Does E s s := Relation.ReflTransGen.refl

theorem Does.trans {E : List Effect} (h₁ : Does E s t) (h₂ : Does E t u) : Does E s u :=
  Relation.ReflTransGen.trans h₁ h₂

theorem Does.mono {E F : List Effect} (h : Does E s t) (hEF : ∀ e ∈ E, e ∈ F) : Does F s t :=
  Relation.ReflTransGen.mono (fun _ _ ⟨e, he, hu⟩ => ⟨e, hEF e he, hu⟩) _ _ h

theorem Update.does {E : List Effect} {e : Effect} (h : Update e s t) (he : e ∈ E) : Does E s t :=
  Relation.ReflTransGen.single ⟨e, he, h⟩

/-- What every update of the given kinds keeps, updates of these kinds keep together. -/
theorem Does.keeps {E : List Effect} {P : State → Prop} (h : Does E s t)
    (hkeep : ∀ e ∈ E, ∀ u v, Update e u v → P u → P v) (hs : P s) : P t := by
  induction h with
  | refl => exact hs
  | tail _ hu ih =>
    obtain ⟨e, he, hu⟩ := hu
    exact hkeep e he _ _ hu ih

/-! ### What each kind writes, and what it leaves as it was -/

theorem Update.cfg_eq {e : Effect} (h : Update e u v) : v.cfg = u.cfg := by cases h <;> rfl

theorem Update.run_eq {e : Effect} (h : Update e u v) (hhalt : e ≠ .halt) (hgo : e ≠ .goOn) : v.run = u.run := by
  cases h with
  | halt => exact absurd rfl hhalt
  | goOn => exact absurd rfl hgo
  | _ => rfl

theorem Update.halted {e : Effect} (h : Update e u v) (hgo : e ≠ .goOn) (hu : u.run = .halted) : v.run = .halted := by
  by_cases hhalt : e = .halt
  · subst hhalt
    cases h
    rfl
  · rw [h.run_eq hhalt hgo, hu]

theorem Update.bps_eq {e : Effect} (h : Update e u v) (he : e ≠ .enter) : v.bps = u.bps := by
  cases h with
  | enter => exact absurd rfl he
  | _ => rfl

theorem Update.mem_eq {e : Effect} (h : Update e u v) (he : e ≠ .store) : v.mem = u.mem := by
  cases h with
  | store => exact absurd rfl he
  | _ => rfl

theorem Update.stepState_eq {e : Effect} (h : Update e u v) (he : e ≠ .control) : v.stepState = u.stepState := by
  cases h with
  | control => exact absurd rfl he
  | _ => rfl

theorem Update.dout_eq {e : Effect} (h : Update e u v) (he : e ≠ .drive) : v.dout = u.dout := by
  cases h with
  | drive => exact absurd rfl he
  | _ => rfl

theorem Update.rstn_eq {e : Effect} (h : Update e u v) (he : e ≠ .resetPulse) : v.rstn = u.rstn := by
  cases h with
  | resetPulse => exact absurd rfl he
  | _ => rfl

/-- A reset pulse ends with the reset line high, and nothing else writes the line (R19). -/
theorem Update.rstn_high {e : Effect} (h : Update e u v) (hu : u.rstn = true) : v.rstn = true := by
  by_cases he : e = .resetPulse
  · subst he
    cases h
    rfl
  · rw [h.rstn_eq he, hu]

/-- Whatever drives the data lines releases them again (R17). -/
theorem Update.released {e : Effect} (h : Update e u v) (hu : u.doe = false) : v.doe = false := by
  cases h with
  | drive => rfl
  | release => rfl
  | _ => exact hu

/-- The output events that an update of a kind produces (R29). -/
def Effect.Emits : Effect → Event → Prop
  | .send, x => ∃ b, x = .tx b
  | .pulse, x => x = .clkAssert ∨ x = .clkDeassert
  | .resetPulse, x => x = .resetLow ∨ x = .resetHigh
  | .drive, x => (∃ b, x = .drive b) ∨ x = .release
  | .release, x => x = .release
  | .input, _ | .place, _ | .store, _ | .enter, _ | .halt, _ | .goOn, _ | .control, _ => False

/-- An update extends the transmit queue and the trace alike, and the trace by events of its kind. -/
theorem Update.history {e : Effect} (h : Update e u v) :
    ∃ es, v.trace = u.trace ++ es ∧ v.txq = u.txq ++ es.filterMap Event.sentByte ∧ ∀ x ∈ es, e.Emits x := by
  cases h with
  | send _ bs room =>
    refine ⟨bs.map Event.tx, rfl, ?_, by simp [Effect.Emits]⟩
    simp [deliver, List.filterMap_map, Function.comp_def, Event.sentByte]
  | pulse =>
    rw [clockPulse_eq]
    exact ⟨[.clkAssert, .clkDeassert], rfl, by simp [Event.sentByte], by simp [Effect.Emits]⟩
  | resetPulse =>
    rw [resetPulse_eq]
    exact ⟨[.resetLow, .resetHigh], rfl, by simp [Event.sentByte], by simp [Effect.Emits]⟩
  | drive _ b => exact ⟨[.drive b, .release], by simp, by simp [Event.sentByte], by simp [Effect.Emits]⟩
  | release => exact ⟨[.release], by simp, by simp [Event.sentByte], by simp [Effect.Emits]⟩
  | _ => exact ⟨[], (List.append_nil _).symm, (List.append_nil _).symm, by simp⟩

section Does

variable {E : List Effect}

theorem Does.cfg_eq (h : Does E s t) : t.cfg = s.cfg :=
  h.keeps (P := fun w => w.cfg = s.cfg) (fun _ _ _ _ hu hw => hu.cfg_eq.trans hw) rfl

theorem Does.run_eq (h : Does E s t) (hhalt : .halt ∉ E) (hgo : .goOn ∉ E) : t.run = s.run :=
  h.keeps (P := fun w => w.run = s.run) (fun _ he _ _ hu hw =>
    (hu.run_eq (ne_of_mem_of_not_mem he hhalt) (ne_of_mem_of_not_mem he hgo)).trans hw) rfl

theorem Does.halted (h : Does E s t) (hgo : .goOn ∉ E) : s.run = .halted → t.run = .halted :=
  h.keeps fun _ he _ _ hu => hu.halted (ne_of_mem_of_not_mem he hgo)

theorem Does.bps_eq (h : Does E s t) (hE : .enter ∉ E) : t.bps = s.bps :=
  h.keeps (P := fun w => w.bps = s.bps) (fun _ he _ _ hu hw => (hu.bps_eq (ne_of_mem_of_not_mem he hE)).trans hw) rfl

theorem Does.mem_eq (h : Does E s t) (hE : .store ∉ E) : t.mem = s.mem :=
  h.keeps (P := fun w => w.mem = s.mem) (fun _ he _ _ hu hw => (hu.mem_eq (ne_of_mem_of_not_mem he hE)).trans hw) rfl

theorem Does.stepState_eq (h : Does E s t) (hE : .control ∉ E) : t.stepState = s.stepState :=
  h.keeps (P := fun w => w.stepState = s.stepState)
    (fun _ he _ _ hu hw => (hu.stepState_eq (ne_of_mem_of_not_mem he hE)).trans hw) rfl

theorem Does.dout_eq (h : Does E s t) (hE : .drive ∉ E) : t.dout = s.dout :=
  h.keeps (P := fun w => w.dout = s.dout) (fun _ he _ _ hu hw => (hu.dout_eq (ne_of_mem_of_not_mem he hE)).trans hw) rfl

theorem Does.rstn_eq (h : Does E s t) (hE : .resetPulse ∉ E) : t.rstn = s.rstn :=
  h.keeps (P := fun w => w.rstn = s.rstn) (fun _ he _ _ hu hw => (hu.rstn_eq (ne_of_mem_of_not_mem he hE)).trans hw) rfl

theorem Does.rstn_high (h : Does E s t) : s.rstn = true → t.rstn = true :=
  h.keeps fun _ _ _ _ hu => hu.rstn_high

theorem Does.released (h : Does E s t) : s.doe = false → t.doe = false :=
  h.keeps fun _ _ _ _ hu => hu.released

/-- Updates extend the transmit queue and the trace alike, and the trace by events of their kinds (R29). -/
theorem Does.history (h : Does E s t) :
    ∃ es, t.trace = s.trace ++ es ∧ t.txq = s.txq ++ es.filterMap Event.sentByte ∧
      ∀ x ∈ es, ∃ e ∈ E, e.Emits x := by
  induction h with
  | refl => exact ⟨[], (List.append_nil _).symm, (List.append_nil _).symm, by simp⟩
  | tail _ hu ih =>
    obtain ⟨e, he, hu⟩ := hu
    obtain ⟨es, htrace, htxq, hes⟩ := ih
    obtain ⟨fs, htrace', htxq', hfs⟩ := hu.history
    refine ⟨es ++ fs, by rw [htrace', htrace, List.append_assoc],
      by rw [htxq', htxq, List.filterMap_append, List.append_assoc], fun x hx => ?_⟩
    rcases List.mem_append.mp hx with hx | hx
    · exact hes x hx
    · exact ⟨e, he, hfs x hx⟩

end Does

/-! ### The effects of the shared operations -/

theorem pollHost_does (s : State) : Does [.input] s (pollHost s) := by
  obtain ⟨bs, room, ts, n, h⟩ := pollHost_spec s
  rw [h]
  exact (Update.host s _ room ts n).does (by decide)

theorem presentCycle_does (s : State) : Does [.input] s (presentCycle s) := by
  obtain ⟨l, cs, n, h⟩ := presentCycle_spec s
  rw [h]
  exact (Update.lines s l cs n).does (by decide)

theorem clockPulse_does (s : State) : Does [.pulse] s (clockPulse s) := (Update.pulse s).does (by decide)

theorem sendResponse_does (bs : List Byte) (s : State) : Does [.send, .place] s (sendResponse bs s) := by
  obtain ⟨sent, rest, room, -, h⟩ := sendResponse_spec bs s
  rw [h]
  exact ((Update.send s sent room).does (by decide)).trans ((Update.place _ _).does (by decide))

theorem respond_does (x : Text) (s : State) : Does [.send, .place] s (respond x s) := sendResponse_does _ s

theorem memWrite_does (a : Addr) (b : Byte) (s : State) : Does [.store] s (memWrite a b s).1 := by
  obtain ⟨m, h, hwf, hsize⟩ := memWrite_spec a b s
  rw [h]
  exact (Update.store s m hwf hsize).does (by decide)

theorem serveRead_does (a : Addr) (s : State) : Does [.drive] s (serveRead a s) :=
  (Update.drive s (memRead a s).1).does (by decide)

theorem serveWrite_does (a : Addr) (s : State) : Does [.release, .store] s (serveWrite a s) :=
  ((Update.release s).does (by decide)).trans ((memWrite_does a _ (releaseData s)).mono (by decide))

theorem endHit_does (a : Addr) (rnw : Bool) (s : State) : Does [.release, .store] s (endHit a rnw s) := by
  have hrelease : Does [.release, .store] s (releaseData s) := (Update.release s).does (by decide)
  rw [endHit_eq]
  split
  · exact hrelease.trans (serveWrite_does a _)
  · exact hrelease

/-- The effects of a breakpoint stop. -/
def stopEffects : List Effect := [.halt, .send, .release, .store, .place]

theorem debugStop_does (a : Addr) (rnw : Bool) (s : State) : Does stopEffects s (debugStop a rnw s) := by
  have hhalt : Does stopEffects s (setHalted s) := (Update.halt s).does (by decide)
  obtain ⟨sent, room, ⟨-, h⟩ | ⟨rest, -, -, h⟩⟩ := debugStop_cases a rnw s
  all_goals
    have hsend := hhalt.trans ((Update.send (setHalted s) sent room).does (by decide))
    rw [h]
  · exact hsend.trans ((endHit_does a rnw _).mono (by decide))
  · exact hsend.trans ((Update.place _ _).does (by decide))

theorem drainLoad_does (a : Addr) (i left : Nat) (s : State) :
    Does [.input, .send, .place] s (drainLoad a i left s) := by
  rcases drainLoad_spec a i left s with ⟨-, h⟩ | ⟨-, h⟩
  all_goals
    have hqueue := fun q =>
      (Update.host s q s.txRoom s.hostIn s.hostCount).does (E := [.input, .send, .place]) (by decide)
    rw [h]
  · exact (hqueue []).trans ((Update.place _ _).does (by decide))
  · exact (hqueue _).trans ((respond_does _ _).mono (by decide))

/-- The effects of `L`. -/
def loadEffects : List Effect := [.input, .store, .send, .place]

theorem loadBytes_does (a : Addr) (left i : Nat) (s : State) : Does loadEffects s (loadBytes a left i s) := by
  obtain ⟨m, q, hwf, hsize, h⟩ := loadBytes_spec a left i s
  have hload : Does loadEffects s { s with mem := m, rxq := q } :=
    ((Update.store s m hwf hsize).does (by decide)).trans
      ((Update.host _ q s.txRoom s.hostIn s.hostCount).does (by decide))
  rcases h with h | ⟨j, h⟩ | ⟨j, l, -, -, h⟩ | ⟨j, l, -, -, h⟩
  all_goals rw [h]
  · exact hload.trans ((respond_does _ _).mono (by decide))
  · exact hload.trans ((respond_does _ _).mono (by decide))
  · exact hload.trans ((Update.place _ _).does (by decide))
  · exact hload.trans ((Update.place _ _).does (by decide))

/-- The effects of the controller's transition. -/
def controllerEffects : List Effect := [.control, .send, .place]

theorem controllerTransition_does (s : State) : Does controllerEffects s (controllerTransition s) := by
  rw [controllerTransition_cases]
  split
  · split
    · exact (Update.control s _).does (by decide)
    · exact Does.refl _ s
  · split
    · exact Does.refl _ s
    · exact (respond_does _ s).mono (by decide)

theorem afterResponder_does (s : State) : Does controllerEffects s (afterResponder s) := by
  unfold afterResponder
  split
  · exact Does.refl _ s
  · exact controllerTransition_does s

/-- The effects of the rest of a notification; inside a Step the controller's transition follows it. -/
def notificationEffects (inStep : Bool) : List Effect :=
  if inStep then [.send, .release, .store, .place, .control] else [.send, .release, .store, .place]

theorem resumeNotification_does (bs : List Byte) (a : Addr) (rnw inStep : Bool) (s : State) :
    Does (notificationEffects inStep) s (resumeNotification bs a rnw inStep s) := by
  obtain ⟨sent, room, h⟩ := resumeNotification_cases bs a rnw inStep s
  have hsend : Does (notificationEffects inStep) s { deliver sent s with txRoom := room } :=
    (Update.send s sent room).does (by cases inStep <;> decide)
  rcases h with ⟨-, u, rfl, h⟩ | ⟨rest, -, -, h⟩
  · have hend := hsend.trans ((endHit_does a rnw _).mono (by cases inStep <;> decide))
    have hback := fun p => hend.trans ((Update.place _ p).does (by cases inStep <;> decide))
    rw [h]
    cases inStep with
    | true => exact (hback .stepping).trans ((controllerTransition_does _).mono (by decide))
    | false => exact hback .atLoop
  · rw [h]
    exact hsend.trans ((Update.place _ _).does (by cases inStep <;> decide))

/-! ### The effects of each operation -/

/-- What each of the thirteen operations writes. -/
def effectsOf : Instr → List Effect
  | .reset => [.resetPulse, .goOn, .send, .place]
  | .halt => [.halt, .send, .place]
  | .cont => [.goOn, .send, .place]
  | .stepOne => [.halt, .control, .place]
  | .write _ _ => [.store, .send, .place]
  | .read _ | .getRegisters | .unknown _ => [.send, .place]
  | .load _ _ => loadEffects
  | .setBreakpoint _ => [.enter, .send, .place]
  | .busBpHit _ _ => stopEffects
  | .busRead _ => [.drive]
  | .busWrite _ => [.release, .store]

theorem exec_does {i : Instr} (h : exec i s = .next t) : Does (effectsOf i) s t := by
  cases i with
  | reset =>
    cases h
    have hpulse : Does (effectsOf .reset) s (setRunning (resetPulse s)) :=
      ((Update.resetPulse s).does (by decide)).trans ((Update.goOn _).does (by decide))
    exact hpulse.trans ((respond_does _ _).mono (by decide))
  | halt =>
    cases h
    exact ((Update.halt s).does (by decide)).trans ((respond_does _ _).mono (by decide))
  | cont =>
    cases h
    exact ((Update.goOn s).does (by decide)).trans ((respond_does _ _).mono (by decide))
  | stepOne =>
    cases h
    have hcontrol : Does (effectsOf .stepOne) s (setStepState .awaitSyncRise (setHalted s)) :=
      ((Update.halt s).does (by decide)).trans ((Update.control _ _).does (by decide))
    exact hcontrol.trans ((Update.place _ _).does (by decide))
  | write a d =>
    have hwrite : Does (effectsOf (.write a d)) s (memWrite a d s).1 := (memWrite_does a d s).mono (by simp [effectsOf])
    cases h
    split
    all_goals exact hwrite.trans ((respond_does _ _).mono (by simp [effectsOf]))
  | read a =>
    cases h
    split
    · exact sendResponse_does _ s
    · exact respond_does _ s
  | load a size =>
    cases h
    exact loadBytes_does a _ 0 s
  | setBreakpoint a =>
    by_cases hroom : bpCount s < s.cfg.bpCapacity
    · cases (exec_setBreakpoint_room a hroom).symm.trans h
      exact ((Update.enter s a hroom).does (by simp [effectsOf])).trans ((respond_does _ _).mono (by simp [effectsOf]))
    · cases (exec_setBreakpoint_full a (Nat.le_of_not_lt hroom)).symm.trans h
      exact (respond_does _ s).mono (by simp [effectsOf])
  | getRegisters | unknown =>
    cases h
    exact respond_does _ s
  | busBpHit a rnw =>
    cases h
    exact debugStop_does a rnw s
  | busRead a =>
    cases h
    exact serveRead_does a s
  | busWrite a =>
    cases h
    exact serveWrite_does a s

end Sys2Proof.Machine

/-! ## One step, by its effects: the invariant, the history, and who writes what (R10, R32) -/

namespace Sys2Proof.Machine

variable {s t u : State}

/-! ### Commands come from the channel -/

theorem commandTaken_of_phase (hloop : s.phase ≠ .atLoop) (hrec : ∀ got, s.phase ≠ .receiving got) :
    commandTaken s = none := by
  cases hp : s.phase with
  | atLoop => exact absurd hp hloop
  | receiving got => exact absurd hp (hrec got)
  | loading | draining | stepping | responding | notifying => simp [commandTaken, hp]

/-- A command that a step takes is what the decoder answers for the bytes of it. -/
theorem commandTaken_decoded {r : Instr × List Byte} (h : commandTaken s = some r) :
    ∃ bs, decodeCommand bs = .ok r := by
  have hbytes : ∃ bs, (decodeCommand bs).toOption = some r := by
    cases hp : s.phase with
    | atLoop => exact ⟨_, by simpa [commandTaken, hp] using h⟩
    | receiving got => exact ⟨_, by simpa [commandTaken, hp] using h⟩
    | loading | draining | stepping | responding | notifying => simp [commandTaken, hp] at h
  obtain ⟨bs, hbs⟩ := hbytes
  cases hd : decodeCommand bs with
  | ok q => rw [hd] at hbs; cases hbs; exact ⟨bs, hd⟩
  | error e => rw [hd] at hbs; cases hbs

/-- A command that a step takes is a command of the channel, so no bus-cycle operation. -/
theorem commandTaken_isCommand {i : Instr} {rest : List Byte} (h : commandTaken s = some (i, rest)) :
    ∃ cmd, encode true i = .command cmd := by
  obtain ⟨bs, hd⟩ := commandTaken_decoded h
  obtain ⟨-, cmd, henc, -⟩ := decodeCommand_sound hd
  exact ⟨cmd, henc true⟩

/-! ### The inversion of a step by its effects -/

/-- What a step that serves a bus cycle is: an invocation on a state that differs from the first by the host's turn
and a clock pulse, and inside a Step what follows the responder. -/
structure Served (s p u t : State) : Prop where
  ready : Does [.input, .pulse] s p
  stored : p.mem = s.mem
  presented : (presentCycle p).lines = cycleServed s
  cycle : busCycle p = .next u
  after : u = t ∨ s.phase.inStep = true ∧ t = afterResponder u

/-- What a step does to the block, by what it is. -/
inductive StepEffects (s t : State) : Prop where
  | command (i : Instr) (rest : List Byte) (taken : commandTaken s = some (i, rest))
      (does : Does (.input :: .place :: effectsOf i) s t)
  | served (p u : State) (serves : servesCycle s) (cycle : Served s p u t)
  | notification (inStep : s.phase.inStep = true) (does : Does (.input :: notificationEffects true) s t)
  | other (does : Does (.release :: .input :: loadEffects) s t)

theorem clockPulse_presents (s : State) : (presentCycle (clockPulse s)).lines = (presentCycle s).lines := by
  rw [clockPulse_eq]
  unfold presentCycle
  cases s.cpuIn <;> rfl

@[simp] theorem clockPulse_mem (s : State) : (clockPulse s).mem = s.mem := by rw [clockPulse_eq]

/-- From the main loop an invocation is the whole step. -/
theorem served_atLoop (h : busCycle (pollHost s) = .next t) : Served s (pollHost s) t t :=
  ⟨(pollHost_does s).mono (by decide), pollHost_mem s, rfl, h, .inl rfl⟩

/-- Inside a Step an invocation comes after the pulse and before the controller's transition (R100). -/
theorem served_stepping (hp : s.phase = .stepping) (h : stepIteration (pollHost s) = .next t) :
    ∃ u, Served s (clockPulse (pollHost s)) u t := by
  obtain ⟨u, hu⟩ := busCycle_answers (clockPulse (pollHost s))
  cases (stepIteration_of_busCycle hu).symm.trans h
  have hready : Does [.input, .pulse] s (clockPulse (pollHost s)) :=
    ((pollHost_does s).mono (by decide)).trans ((clockPulse_does _).mono (by decide))
  exact ⟨u, hready, (clockPulse_mem _).trans (pollHost_mem s), clockPulse_presents _, hu, .inr ⟨by rw [hp]; rfl, rfl⟩⟩

theorem step_effects (h : step s = .next t) : StepEffects s t := by
  have hpoll : ∀ {E : List Effect}, .input ∈ E → Does E s (pollHost s) := fun hE =>
    (pollHost_does s).mono fun e he => List.mem_singleton.mp he ▸ hE
  rcases step_cases s with ⟨i, rest, htaken, he⟩ | ⟨got, e, -, -, -, he⟩ | ⟨-, -, -, hserves, he⟩ | ⟨-, -, -, he⟩ |
    ⟨a, i, left, -, he⟩ | ⟨a, i, left, -, he⟩ | ⟨hp, hserves, he⟩ | ⟨bs, -, he⟩ | ⟨bs, a, rnw, inStep, hp, he⟩
  · have hqueue := (Update.host (pollHost s) rest (pollHost s).txRoom (pollHost s).hostIn (pollHost s).hostCount).does
      (E := .input :: .place :: effectsOf i) (by simp)
    have htake := (hpoll (by simp)).trans (hqueue.trans ((Update.place _ .atLoop).does (by simp)))
    exact .command i rest htaken (htake.trans ((exec_does (he.symm.trans h)).mono (by simp +contextual)))
  · cases he.symm.trans h
    have hqueue := (Update.host (pollHost s) [] (pollHost s).txRoom (pollHost s).hostIn (pollHost s).hostCount).does
      (E := .release :: .input :: loadEffects) (by decide)
    exact .other ((hpoll (by decide)).trans (hqueue.trans ((Update.place _ _).does (by decide))))
  · exact .served _ t hserves (served_atLoop (he.symm.trans h))
  · cases he.symm.trans h
    exact .other (hpoll (by decide))
  · cases he.symm.trans h
    exact .other ((hpoll (by decide)).trans ((loadBytes_does a left i _).mono (by decide)))
  · cases he.symm.trans h
    exact .other ((hpoll (by decide)).trans ((drainLoad_does a i left _).mono (by decide)))
  · obtain ⟨u, hu⟩ := served_stepping hp (he.symm.trans h)
    exact .served _ u hserves hu
  · cases he.symm.trans h
    exact .other ((hpoll (by decide)).trans ((sendResponse_does bs _).mono (by decide)))
  · cases he.symm.trans h
    cases inStep with
    | true =>
      exact .notification (by rw [hp]; rfl)
        ((hpoll (by decide)).trans ((resumeNotification_does bs a rnw true _).mono (by decide)))
    | false =>
      exact .other ((hpoll (by decide)).trans ((resumeNotification_does bs a rnw false _).mono (by decide)))

/-- An invocation writes what the operation that it selects writes. -/
theorem busCycle_does (h : busCycle s = .next t) :
    Does (.input :: effectsOf (selectOperation (bpContains (presentCycle s).lines.sample.addr (presentCycle s))
      (presentCycle s).lines.sample)) s t := by
  rw [busCycle_eq_exec_selectOperation] at h
  exact ((presentCycle_does s).mono (by simp)).trans ((exec_does h).mono (by simp +contextual))

/-- What any invocation writes: no operation of the responder sets Running, writes the table or pulses a line. -/
def cycleEffects : List Effect := .input :: .drive :: stopEffects

theorem effectsOf_selectOperation (hit : Bool) (b : BusSample) :
    ∀ e ∈ .input :: effectsOf (selectOperation hit b), e ∈ cycleEffects := by
  cases hit with
  | true => simp [effectsOf, cycleEffects, stopEffects]
  | false => cases hr : b.rnw <;> simp [selectOperation, hr, effectsOf, cycleEffects, stopEffects]

theorem busCycle_does_some (h : busCycle s = .next t) : Does cycleEffects s t :=
  (busCycle_does h).mono (effectsOf_selectOperation _ _)

theorem Served.after_does {p : State} (h : Served s p u t) : Does controllerEffects u t := by
  rcases h.after with rfl | ⟨-, rfl⟩
  · exact Does.refl _ u
  · exact afterResponder_does u

/-- What a step that serves a bus cycle writes. -/
theorem Served.does {p : State} (h : Served s p u t) :
    Does (.pulse :: .control :: cycleEffects) s t :=
  have hinvoked := (h.ready.mono (by decide)).trans ((busCycle_does_some h.cycle).mono (by decide))
  hinvoked.trans (h.after_does.mono (by decide))

/-- Every step is made of updates. -/
theorem step_does (h : step s = .next t) : ∃ E, Does E s t := by
  cases step_effects h with
  | command i rest taken does => exact ⟨_, does⟩
  | served p u serves cycle => exact ⟨_, cycle.does⟩
  | notification inStep does => exact ⟨_, does⟩
  | other does => exact ⟨_, does⟩

end Sys2Proof.Machine

/-! ## The invariant of R32 along every step, and what only grows (10_state.md sections 3, 5, 7) -/

namespace Sys2Proof.Machine

variable {s t u v : State}

/-! ### The block's elements -/

/-- The invariant but for the place of the thread of control. -/
structure BlockSound (s : State) : Prop where
  legal : s.cfg.Legal
  memForm : s.mem.wf
  memSize : ∀ c ∈ s.mem, c.1 < s.cfg.memSize
  table : bpCount s ≤ s.cfg.bpCapacity
  released : s.doe = false
  resetHigh : s.rstn = true
  haltedClock : s.run = .halted → s.clk = false
  sent : s.txq = s.trace.filterMap Event.sentByte

theorem inv_iff (s : State) : Inv s ↔ BlockSound s ∧ PhaseSound s :=
  ⟨fun h => ⟨⟨h.legal, h.memForm, h.memSize, h.table, h.released, h.resetHigh, h.haltedClock, h.sent⟩, h.phase⟩,
    fun ⟨h, hp⟩ => ⟨h.legal, h.memForm, h.memSize, h.table, h.released, h.resetHigh, h.haltedClock, h.sent, hp⟩⟩

theorem Update.memForm {e : Effect} (h : Update e u v) (hu : u.mem.wf) : v.mem.wf := by
  cases h with
  | store _ m hwf => exact hwf hu
  | _ => exact hu

theorem Update.memSize {e : Effect} (h : Update e u v) (hu : ∀ c ∈ u.mem, c.1 < u.cfg.memSize) :
    ∀ c ∈ v.mem, c.1 < v.cfg.memSize := by
  cases h with
  | store _ m hwf hsize => exact hsize hu
  | _ => exact hu

theorem Update.table {e : Effect} (h : Update e u v) (hu : bpCount u ≤ u.cfg.bpCapacity) :
    bpCount v ≤ v.cfg.bpCapacity := by
  cases h with
  | enter _ a hroom => simpa [bpCount] using hroom
  | _ => exact hu

/-- A change to Halted and a clock pulse end with the latch clear, and nothing else sets it (R18, D3). -/
theorem Update.haltedClock {e : Effect} (h : Update e u v) (hu : u.run = .halted → u.clk = false) :
    v.run = .halted → v.clk = false := by
  cases h with
  | halt => exact fun _ => rfl
  | goOn => exact fun hrun => nomatch hrun
  | pulse => exact fun _ => rfl
  | _ => exact hu

theorem Update.sent {e : Effect} (h : Update e u v) (hu : u.txq = u.trace.filterMap Event.sentByte) :
    v.txq = v.trace.filterMap Event.sentByte := by
  obtain ⟨es, htrace, htxq, -⟩ := h.history
  rw [htxq, htrace, List.filterMap_append, hu]

theorem Update.blockSound {e : Effect} (h : Update e u v) (hu : BlockSound u) : BlockSound v where
  legal := h.cfg_eq ▸ hu.legal
  memForm := h.memForm hu.memForm
  memSize := h.memSize hu.memSize
  table := h.table hu.table
  released := h.released hu.released
  resetHigh := h.rstn_high hu.resetHigh
  haltedClock := h.haltedClock hu.haltedClock
  sent := h.sent hu.sent

theorem step_blockSound (h : step s = .next t) (hs : BlockSound s) : BlockSound t := by
  obtain ⟨E, hdoes⟩ := step_does h
  exact hdoes.keeps (fun _ _ _ _ hu => hu.blockSound) hs

/-! ### The place of the thread of control -/

/-- A response ends at the main loop, or waits with bytes unsent. -/
theorem sendResponse_phaseSound (bs : List Byte) (s : State) : PhaseSound (sendResponse bs s) := by
  obtain ⟨sent, rest, room, -, h⟩ := sendResponse_spec bs s
  rw [h]
  by_cases hrest : rest = []
  · simp [PhaseSound, hrest]
  · simp [PhaseSound, hrest]

theorem drainLoad_phaseSound (a : Addr) {i left : Nat} (s : State) (h : i + left < 65536) :
    PhaseSound (drainLoad a i left s) := by
  rcases drainLoad_spec a i left s with ⟨hlt, he⟩ | ⟨-, he⟩
  · rw [he]
    exact ⟨by omega, by omega⟩
  · rw [he]
    exact sendResponse_phaseSound _ _

theorem loadBytes_phaseSound (a : Addr) {i left : Nat} (s : State) (h : i + left < 65536) :
    PhaseSound (loadBytes a left i s) := by
  obtain ⟨m, q, -, -, he | ⟨j, he⟩ | ⟨j, l, hl, hjl, he⟩ | ⟨j, l, hl, hjl, he⟩⟩ := loadBytes_spec a left i s
  · rw [he]; exact sendResponse_phaseSound _ _
  · rw [he]; exact sendResponse_phaseSound _ _
  · rw [he]; exact ⟨hl, by omega⟩
  · rw [he]; exact ⟨hl, by omega⟩

/-- At the top of the main loop, and Halted inside a Step, nothing is asked of the rest of the state. -/
theorem phaseSound_of_loop (h : s.phase = .atLoop ∨ s.phase = .stepping ∧ s.run = .halted) : PhaseSound s := by
  rcases h with hp | ⟨hp, hr⟩
  · simp [PhaseSound, hp]
  · simp [PhaseSound, hp, hr]

theorem debugStop_phaseSound (a : Addr) (rnw : Bool) (h : s.phase = .atLoop ∨ s.phase = .stepping) :
    PhaseSound (debugStop a rnw s) := by
  have hrun := debugStop_run a rnw s
  obtain ⟨sent, room, ⟨-, he⟩ | ⟨rest, hrest, -, he⟩⟩ := debugStop_cases a rnw s
  · rw [he] at hrun ⊢
    refine phaseSound_of_loop (h.imp (fun hp => ?_) fun hp => ⟨?_, hrun⟩)
    all_goals rw [endHit_phase, setHalted_phase, hp]
  · rw [he]
    exact ⟨hrest, rfl⟩

/-- An operation run at the top of the main loop leaves the thread of control in a sound place. -/
theorem exec_phaseSound {i : Instr} (hp : s.phase = .atLoop) (h : exec i s = .next t) : PhaseSound t := by
  cases i with
  | stepOne => cases h; exact rfl
  | load a size =>
    cases h
    exact loadBytes_phaseSound a s (by simpa using size.isLt)
  | write a d =>
    cases h
    split <;> exact sendResponse_phaseSound _ _
  | read a =>
    cases h
    split <;> exact sendResponse_phaseSound _ _
  | setBreakpoint a =>
    cases h
    split <;> exact sendResponse_phaseSound _ _
  | reset | halt | cont | getRegisters | unknown =>
    cases h
    exact sendResponse_phaseSound _ _
  | busBpHit a rnw =>
    cases h
    exact debugStop_phaseSound a rnw (.inl hp)
  | busRead a =>
    cases h
    exact phaseSound_of_loop (.inl ((serveRead_phase a s).trans hp))
  | busWrite a =>
    cases h
    exact phaseSound_of_loop (.inl ((serveWrite_phase a s).trans hp))

/-- An invocation from the main loop, or from a Step that is Halted, leaves the thread of control in a sound place. -/
theorem busCycle_phaseSound (hp : s.phase = .atLoop ∨ s.phase = .stepping ∧ s.run = .halted)
    (h : busCycle s = .next t) : PhaseSound t := by
  have hplace : (presentCycle s).phase = .atLoop ∨
      (presentCycle s).phase = .stepping ∧ (presentCycle s).run = .halted := by
    rw [presentCycle_phase, (presentCycle_does s).run_eq (by decide) (by decide)]
    exact hp
  rcases busCycle_cases s with ⟨-, he⟩ | ⟨-, -, he⟩ | ⟨-, -, he⟩
  all_goals cases he.symm.trans h
  · exact debugStop_phaseSound _ _ (hplace.imp_right And.left)
  · refine phaseSound_of_loop ?_
    rw [serveRead_phase, (serveRead_does _ _).run_eq (by decide) (by decide)]
    exact hplace
  · refine phaseSound_of_loop ?_
    rw [serveWrite_phase, (serveWrite_does _ _).run_eq (by decide) (by decide)]
    exact hplace

/-- The controller's transition stays at the top of the Step loop, Halted, or ends the Step with a response. -/
theorem controllerTransition_phaseSound (hp : s.phase = .stepping) (hr : s.run = .halted) :
    PhaseSound (controllerTransition s) := by
  rw [controllerTransition_cases]
  split
  · split
    · exact phaseSound_of_loop (.inr ⟨hp, hr⟩)
    · exact phaseSound_of_loop (.inr ⟨hp, hr⟩)
  · split
    · exact phaseSound_of_loop (.inr ⟨hp, hr⟩)
    · exact sendResponse_phaseSound _ _

theorem stepIteration_phaseSound (hp : s.phase = .stepping) (hr : s.run = .halted)
    (h : stepIteration s = .next t) : PhaseSound t := by
  obtain ⟨u, hu⟩ := busCycle_answers (clockPulse s)
  cases (stepIteration_of_busCycle hu).symm.trans h
  have hpulse : (clockPulse s).phase = .stepping ∧ (clockPulse s).run = .halted :=
    ⟨(clockPulse_phase s).trans hp, (clockPulse_does s).halted (by decide) hr⟩
  rcases busCycle_phase_of_stepping hpulse.1 hu with hback | ⟨bs, a, rnw, hnote⟩
  · rw [afterResponder_of_stepping hback]
    exact controllerTransition_phaseSound hback ((busCycle_does_some hu).halted (by decide) hpulse.2)
  · rw [afterResponder_of_notifying hnote]
    exact busCycle_phaseSound (.inr hpulse) hu

theorem resumeNotification_phaseSound (bs : List Byte) (a : Addr) (rnw inStep : Bool) (hr : s.run = .halted) :
    PhaseSound (resumeNotification bs a rnw inStep s) := by
  obtain ⟨sent, room, ⟨-, u, rfl, h⟩ | ⟨rest, hrest, -, h⟩⟩ := resumeNotification_cases bs a rnw inStep s
  · rw [h]
    cases inStep with
    | true => exact controllerTransition_phaseSound rfl ((endHit_run _ _ _).trans hr)
    | false => exact phaseSound_of_loop (.inl rfl)
  · rw [h]
    exact ⟨hrest, hr⟩

theorem step_phaseSound (h : step s = .next t) (hs : PhaseSound s) : PhaseSound t := by
  rcases step_cases s with ⟨i, rest, -, he⟩ | ⟨got, e, hgot, hd, -, he⟩ | ⟨hp, -, -, -, he⟩ | ⟨hp, -, -, he⟩ |
    ⟨a, i, left, hp, he⟩ | ⟨a, i, left, hp, he⟩ | ⟨hp, -, he⟩ | ⟨bs, -, he⟩ | ⟨bs, a, rnw, inStep, hp, he⟩
  · exact exec_phaseSound rfl (he.symm.trans h)
  · have hbytes : got ++ (pollHost s).rxq ≠ [] := by
      rcases hgot with ⟨-, hq, rfl⟩ | hp
      · exact hq
      · simp only [PhaseSound, hp] at hs
        obtain ⟨c, n, hs⟩ := hs
        exact List.append_ne_nil_of_left_ne_nil (ne_nil_of_argumentMissing hs) _
    cases he.symm.trans h
    exact decodeCommand_error_of_ne_nil hbytes hd
  · exact busCycle_phaseSound (.inl ((pollHost_phase s).trans hp)) (he.symm.trans h)
  · cases he.symm.trans h
    exact phaseSound_of_loop (.inl ((pollHost_phase s).trans hp))
  · simp only [PhaseSound, hp] at hs
    cases he.symm.trans h
    exact loadBytes_phaseSound a _ hs.2
  · simp only [PhaseSound, hp] at hs
    cases he.symm.trans h
    exact drainLoad_phaseSound a _ hs.2
  · simp only [PhaseSound, hp] at hs
    exact stepIteration_phaseSound ((pollHost_phase s).trans hp) ((pollHost_run s).trans hs) (he.symm.trans h)
  · cases he.symm.trans h
    exact sendResponse_phaseSound _ _
  · simp only [PhaseSound, hp] at hs
    cases he.symm.trans h
    exact resumeNotification_phaseSound bs a rnw inStep ((pollHost_run s).trans hs.2)

/-! ### The invariant from power-on -/

theorem PowerOn.inv (h : PowerOn s) : Inv s where
  legal := h.legal
  memForm := h.memForm
  memSize := h.memSize
  table := by simp [bpCount, h.table]
  released := h.released
  resetHigh := h.resetHigh
  haltedClock := fun _ => h.clock
  sent := by simp [h.txEmpty, h.noEvents]
  phase := phaseSound_of_loop (.inl h.atLoop)

theorem powerOn_reset : PowerOn State.reset where
  legal := by decide
  memForm := wf_nil
  memSize := by simp [State.reset]
  table := rfl
  running := rfl
  stepState := rfl
  released := rfl
  clock := rfl
  resetHigh := rfl
  rxEmpty := rfl
  txEmpty := rfl
  atLoop := rfl
  noEvents := rfl

theorem step_keeps_inv (hs : Inv s) (h : step s = .next t) : Inv t := by
  obtain ⟨hblock, hphase⟩ := (inv_iff s).mp hs
  exact (inv_iff t).mpr ⟨step_blockSound h hblock, step_phaseSound h hphase⟩

/-! ### The obligations -/

/-- Settles O53: the elements of the block by the effects of the step, the thread of control's place by what the step
is. -/
theorem everyStepKeepsInvariant : Obligations.EveryStepKeepsInvariant := by
  unfold Obligations.EveryStepKeepsInvariant
  exact fun _ _ => step_keeps_inv

/-- Settles O54, by induction on the steps from power-on. -/
theorem reachableStatesKeepInvariant : Obligations.ReachableStatesKeepInvariant := by
  unfold Obligations.ReachableStatesKeepInvariant
  intro s hs
  induction hs with
  | powerOn s h => exact h.inv
  | step s t _ ht ih => exact step_keeps_inv ih ht

/-- Settles O50: the fields of `State.reset` (D7, D8). -/
theorem resetStateValues : Obligations.ResetStateValues := by
  unfold Obligations.ResetStateValues
  exact ⟨powerOn_reset, rfl, rfl, rfl, rfl, rfl, rfl, rfl, rfl, rfl⟩

/-- Settles O51: the reset state is a power-on state. -/
theorem invariantHoldsAtReset : Obligations.InvariantHoldsAtReset := powerOn_reset.inv

/-- Settles O52. -/
theorem invariantHoldsAtPowerOn : Obligations.InvariantHoldsAtPowerOn := by
  unfold Obligations.InvariantHoldsAtPowerOn
  exact fun _ => PowerOn.inv

/-- Settles O55: updates keep the parameters and extend the queue and the trace; the table by `step_bps_grows`. -/
theorem historyOnlyGrows : Obligations.HistoryOnlyGrows := by
  unfold Obligations.HistoryOnlyGrows
  intro s t h
  obtain ⟨E, hdoes⟩ := step_does h
  obtain ⟨es, htrace, htxq, -⟩ := hdoes.history
  exact ⟨hdoes.cfg_eq, step_bps_grows h, ⟨_, htxq⟩, es, htrace⟩

end Sys2Proof.Machine

/-! ## Who writes what: RUN, STEP, DOUT, RSTN, the table and the trace (10_state.md sections 1 and 3) -/

namespace Sys2Proof.Machine

variable {s t p u : State}

/-! ### The commands that write an element -/

/-- Of the commands of the channel only `R`, `H`, `C` and `S` write `RUN`. -/
theorem runControl_of_effects {i : Instr} {cmd : List Byte} (henc : encode true i = .command cmd)
    (h : .halt ∈ effectsOf i ∨ .goOn ∈ effectsOf i) : i ∈ [Instr.reset, Instr.halt, Instr.cont, Instr.stepOne] := by
  cases i with
  | reset | halt | cont | stepOne => simp
  | busBpHit => cases henc
  | write | read | load | setBreakpoint | getRegisters | unknown | busRead | busWrite =>
    simp [effectsOf, loadEffects] at h

theorem stepOne_of_effects {i : Instr} (h : .control ∈ effectsOf i) : i = .stepOne := by
  cases i <;> simp [effectsOf, loadEffects, stopEffects] at h ⊢

theorem reset_of_effects {i : Instr} (h : .resetPulse ∈ effectsOf i) : i = .reset := by
  cases i <;> simp [effectsOf, loadEffects, stopEffects] at h ⊢

/-- No command of the channel drives the data lines. -/
theorem not_drive_of_command {i : Instr} {cmd : List Byte} (henc : encode true i = .command cmd) :
    .drive ∉ effectsOf i := by
  cases i with
  | busRead => cases henc
  | reset | halt | cont | stepOne | write | read | load | setBreakpoint | getRegisters | unknown | busBpHit
  | busWrite =>
    simp [effectsOf, loadEffects, stopEffects]

/-- Updates with no change to Running leave `RUN` as it was, or Halted. -/
theorem Does.run_eq_or_halted {E : List Effect} (h : Does E s t) (hgo : .goOn ∉ E) :
    t.run = s.run ∨ t.run = .halted := by
  cases hr : s.run with
  | halted => exact .inr (h.halted hgo hr)
  | running => cases ht : t.run <;> simp

/-! ### The invocation that writes an element -/

/-- An invocation that does not hit leaves `RUN` as it was (R87). -/
theorem busCycle_run_of_miss (hmiss : (presentCycle s).lines.sample.addr ∉ s.bps) (h : busCycle s = .next t) :
    t.run = s.run := by
  refine (busCycle_does h).run_eq ?_ ?_
  all_goals
    rw [Bool.eq_false_iff.mpr (mt (bpContains_presentCycle_iff _ s).mp hmiss)]
    cases hr : (presentCycle s).lines.sample.rnw <;> simp [selectOperation, hr, effectsOf]

/-- An invocation changes `DOUT` only by a bus read, to the byte it answers (R88). -/
theorem busCycle_dout (h : busCycle s = .next t) :
    t.dout = s.dout ∨ (presentCycle s).lines.sample.rnw = true ∧ (presentCycle s).lines.sample.addr ∉ s.bps ∧
      t.dout = (memRead (presentCycle s).lines.sample.addr (presentCycle s)).1 := by
  have hpresent := (presentCycle_does s).dout_eq (by decide)
  rcases busCycle_cases s with ⟨-, he⟩ | ⟨hmiss, hr, he⟩ | ⟨-, -, he⟩
  all_goals cases he.symm.trans h
  · exact .inl (((debugStop_does _ _ _).dout_eq (by decide)).trans hpresent)
  · exact .inr ⟨hr, mt (bpContains_presentCycle_iff _ s).mpr (Bool.eq_false_iff.mp hmiss), rfl⟩
  · exact .inl (((serveWrite_does _ _).dout_eq (by decide)).trans hpresent)

@[simp] theorem presentCycle_mem (s : State) : (presentCycle s).mem = s.mem := by
  obtain ⟨l, cs, n, h⟩ := presentCycle_spec s
  rw [h]

/-- A read depends on the parameters and the store only. -/
theorem memRead_congr {a : Addr} (hcfg : s.cfg = t.cfg) (hmem : s.mem = t.mem) : memRead a s = memRead a t := by
  rw [memRead_eq, memRead_eq, hcfg, hmem]

theorem Served.bps_eq (h : Served s p u t) : p.bps = s.bps := h.ready.bps_eq (by decide)

theorem Served.run_changed (h : Served s p u t) (hne : t.run ≠ s.run) :
    (cycleServed s).sample.addr ∈ s.bps ∧ t.run = .halted := by
  have hready : p.run = s.run := h.ready.run_eq (by decide) (by decide)
  have hafter : t.run = u.run := h.after_does.run_eq (by decide) (by decide)
  refine ⟨?_, (h.does.run_eq_or_halted (by decide)).resolve_left hne⟩
  by_contra hmiss
  rw [← h.presented, ← h.bps_eq] at hmiss
  exact hne (hafter.trans ((busCycle_run_of_miss hmiss h.cycle).trans hready))

theorem Served.dout_changed (h : Served s p u t) (hne : t.dout ≠ s.dout) :
    (cycleServed s).sample.rnw = true ∧ (cycleServed s).sample.addr ∉ s.bps ∧
      t.dout = (memRead (cycleServed s).sample.addr s).1 := by
  have hready : p.dout = s.dout := h.ready.dout_eq (by decide)
  have hafter : t.dout = u.dout := h.after_does.dout_eq (by decide)
  have hcfg : (presentCycle p).cfg = s.cfg := ((presentCycle_does p).cfg_eq).trans h.ready.cfg_eq
  have hmem : (presentCycle p).mem = s.mem := (presentCycle_mem p).trans h.stored
  rcases busCycle_dout h.cycle with hsame | ⟨hr, hmiss, hbyte⟩
  · exact absurd (hafter.trans (hsame.trans hready)) hne
  · rw [h.presented] at hr hmiss hbyte
    rw [h.bps_eq] at hmiss
    exact ⟨hr, hmiss, by rw [hafter, hbyte, memRead_congr hcfg hmem]⟩

/-! ### The writers of an element in a step -/

theorem step_run_changed (h : step s = .next t) (hne : t.run ≠ s.run) :
    (∃ i rest, commandTaken s = some (i, rest) ∧ i ∈ [Instr.reset, Instr.halt, Instr.cont, Instr.stepOne]) ∨
    (servesCycle s ∧ (cycleServed s).sample.addr ∈ s.bps ∧ t.run = .halted) := by
  cases step_effects h with
  | command i rest taken does =>
    obtain ⟨cmd, henc⟩ := commandTaken_isCommand taken
    refine .inl ⟨i, rest, taken, runControl_of_effects henc ?_⟩
    by_contra hnone
    exact hne (does.run_eq (by simpa using mt Or.inl hnone) (by simpa using mt Or.inr hnone))
  | served p u serves cycle => exact .inr ⟨serves, cycle.run_changed hne⟩
  | notification inStep does => exact absurd (does.run_eq (by decide) (by decide)) hne
  | other does => exact absurd (does.run_eq (by decide) (by decide)) hne

theorem step_stepState_changed (h : step s = .next t) (hne : t.stepState ≠ s.stepState) :
    s.phase.inStep = true ∨ ∃ rest, commandTaken s = some (.stepOne, rest) := by
  cases step_effects h with
  | command i rest taken does =>
    have hcontrol : .control ∈ effectsOf i := by
      by_contra hnone
      exact hne (does.stepState_eq (by simpa using hnone))
    exact .inr ⟨rest, stepOne_of_effects hcontrol ▸ taken⟩
  | served p u serves cycle =>
    rcases cycle.after with rfl | ⟨hin, -⟩
    · exact absurd (((busCycle_does_some cycle.cycle).stepState_eq (by decide)).trans
        (cycle.ready.stepState_eq (by decide))) hne
    · exact .inl hin
  | notification inStep does => exact .inl inStep
  | other does => exact absurd (does.stepState_eq (by decide)) hne

theorem step_dout_changed (h : step s = .next t) (hne : t.dout ≠ s.dout) :
    servesCycle s ∧ (cycleServed s).sample.rnw = true ∧ (cycleServed s).sample.addr ∉ s.bps ∧
      t.dout = (memRead (cycleServed s).sample.addr s).1 := by
  cases step_effects h with
  | command i rest taken does =>
    obtain ⟨cmd, henc⟩ := commandTaken_isCommand taken
    exact absurd (does.dout_eq (by simpa using not_drive_of_command henc)) hne
  | served p u serves cycle => exact ⟨serves, cycle.dout_changed hne⟩
  | notification inStep does => exact absurd (does.dout_eq (by decide)) hne
  | other does => exact absurd (does.dout_eq (by decide)) hne

theorem step_rstn_changed (h : step s = .next t) (hne : t.rstn ≠ s.rstn) :
    ∃ rest, commandTaken s = some (.reset, rest) := by
  cases step_effects h with
  | command i rest taken does =>
    have hpulse : .resetPulse ∈ effectsOf i := by
      by_contra hnone
      exact hne (does.rstn_eq (by simpa using hnone))
    exact ⟨rest, reset_of_effects hpulse ▸ taken⟩
  | served p u serves cycle => exact absurd (cycle.does.rstn_eq (by decide)) hne
  | notification inStep does => exact absurd (does.rstn_eq (by decide)) hne
  | other does => exact absurd (does.rstn_eq (by decide)) hne

/-! ### Inside a command or a notification -/

theorem not_servesCycle_of_phase (hloop : s.phase ≠ .atLoop) (hstep : s.phase.inStep = false) : ¬ servesCycle s := by
  rintro (hp | ⟨hp, -⟩)
  · rw [pollHost_phase] at hp
    rw [hp] at hstep
    cases hstep
  · exact hloop ((pollHost_phase s).symm.trans hp)

/-- What a step inside a command or a notification of the main loop writes: neither `RUN` nor the table nor `STEP`. -/
theorem step_does_inside_command (hloop : s.phase ≠ .atLoop) (hrec : ∀ got, s.phase ≠ .receiving got)
    (hstep : s.phase.inStep = false) (h : step s = .next t) : Does (.release :: .input :: loadEffects) s t := by
  cases step_effects h with
  | command i rest taken does => rw [commandTaken_of_phase hloop hrec] at taken; cases taken
  | served p u serves cycle => exact absurd serves (not_servesCycle_of_phase hloop hstep)
  | notification inStep does => rw [hstep] at inStep; cases inStep
  | other does => exact does

/-! ### The obligations -/

/-- Settles O56: for each element the steps whose effects write it. -/
theorem elementsChangeOnlyByTheirWriters : Obligations.ElementsChangeOnlyByTheirWriters := by
  unfold Obligations.ElementsChangeOnlyByTheirWriters
  intro s t h
  obtain ⟨E, hdoes⟩ := step_does h
  exact ⟨fun hne => (step_bps h).resolve_left hne, step_run_changed h, step_stepState_changed h, step_dout_changed h,
    hdoes.rstn_high, step_rstn_changed h⟩

/-- Settles O58: of the writers of `RUN` a hit, `H` and `S` end Halted. -/
theorem haltedIsLeftOnlyByContinueOrReset : Obligations.HaltedIsLeftOnlyByContinueOrReset := by
  unfold Obligations.HaltedIsLeftOnlyByContinueOrReset
  refine ⟨fun s t hs h ht => ?_, fun s => ⟨_, _, exec_cont s, respond_run _ _, exec_reset s, respond_run _ _⟩⟩
  cases step_effects h with
  | command i rest taken does =>
    refine ⟨i, rest, taken, ?_⟩
    have hgo : .goOn ∈ effectsOf i := by
      by_contra hnone
      rw [does.halted (by simpa using hnone) hs] at ht
      cases ht
    cases i <;> simp [effectsOf, loadEffects, stopEffects] at hgo ⊢
  | served p u serves cycle => rw [cycle.does.halted (by decide) hs] at ht; cases ht
  | notification inStep does => rw [does.halted (by decide) hs] at ht; cases ht
  | other does => rw [does.halted (by decide) hs] at ht; cases ht

/-- Settles O49: no cycle and no command by the place of the thread of control, the rest by the effects of the step. -/
theorem commandsAreUninterrupted : Obligations.CommandsAreUninterrupted := by
  unfold Obligations.CommandsAreUninterrupted
  intro s t hloop hrec hstep h
  have hdoes := step_does_inside_command hloop hrec hstep h
  obtain ⟨es, htrace, -, hes⟩ := hdoes.history
  refine ⟨not_servesCycle_of_phase hloop hstep, commandTaken_of_phase hloop hrec, hdoes.run_eq (by decide) (by decide),
    hdoes.bps_eq (by decide), hdoes.stepState_eq (by decide), es, htrace, fun e he => ?_⟩
  simpa [loadEffects, Effect.Emits] using hes e he

/-- Settles O19: every update ends with the lines released, and only the effects of a bus read hold a drive. -/
theorem responderNeverDrivesAgainstTheCpu : Obligations.ResponderNeverDrivesAgainstTheCpu := by
  unfold Obligations.ResponderNeverDrivesAgainstTheCpu
  intro s t hs h
  have hdoes := busCycle_does h
  refine ⟨hdoes.released hs, fun hcpu => ?_⟩
  obtain ⟨es, htrace, -, hes⟩ := hdoes.history
  refine ⟨es, htrace, fun b hb => ?_⟩
  obtain ⟨e, he, hemits⟩ := hes _ hb
  have hdrive : e = .drive := by cases e <;> simp [Effect.Emits] at hemits ⊢
  subst hdrive
  rcases hcpu with hwrite | hhit
  · cases hc : bpContains (presentCycle s).lines.sample.addr (presentCycle s) with
    | true => simp [hc, effectsOf, stopEffects] at he
    | false => simp [hc, selectOperation_of_not_rnw hwrite, effectsOf] at he
  · simp [(bpContains_presentCycle_iff _ s).mpr hhit, effectsOf, stopEffects] at he

end Sys2Proof.Machine

/-! ## The store: a byte changes only by a write transaction on its address (R10, R30; 20_memory.md section 1) -/

namespace Sys2Proof.Machine

variable {s t p u : State} {k : Nat}

/-! ### What a changed byte says of the operation that changed it -/

/-- A byte that a guarded write changed is the written one, at an address of the store. -/
theorem guarded_write_changed {m m' : Memory} {a size : Nat} {b : Byte} (hwf : m.wf)
    (hm : m' = if a < size then m.write a b else m) (hne : m'.read k ≠ m.read k) :
    k < size ∧ a = k ∧ m'.read k = b := by
  subst hm
  by_cases ha : a < size
  · simp only [if_pos ha] at hne ⊢
    by_cases hk : k = a
    · subst hk
      exact ⟨ha, rfl, read_write_same hwf k b⟩
    · exact absurd (read_write_other hwf b hk) hne
  · simp only [if_neg ha] at hne
    exact absurd rfl hne

/-- A change of the store by `BUS.WRITE` is the sampled byte at its address (R89). -/
theorem serveWrite_changed {a : Addr} (hwf : s.mem.wf) (hne : (serveWrite a s).mem.read k ≠ s.mem.read k) :
    k < s.cfg.memSize ∧ a.toNat = k ∧ (serveWrite a s).mem.read k = s.lines.data :=
  guarded_write_changed hwf (by rw [serveWrite_eq]) hne

/-- A change of the store by the end of a hit is the write of a hit cycle, where a hit commits one (D4). -/
theorem endHit_changed {a : Addr} {rnw : Bool} (hwf : s.mem.wf)
    (hne : (endHit a rnw s).mem.read k ≠ s.mem.read k) :
    rnw = false ∧ s.cfg.bpHitCommitsWrite = true ∧ k < s.cfg.memSize ∧ a.toNat = k ∧
      (endHit a rnw s).mem.read k = s.lines.data := by
  rw [endHit_eq] at hne ⊢
  by_cases h : s.cfg.bpHitCommitsWrite = true ∧ rnw = false
  · rw [if_pos h] at hne ⊢
    exact ⟨h.2, h.1, serveWrite_changed (s := releaseData s) hwf hne⟩
  · rw [if_neg h] at hne
    exact absurd rfl hne

theorem debugStop_changed {a : Addr} {rnw : Bool} (hwf : s.mem.wf)
    (hne : (debugStop a rnw s).mem.read k ≠ s.mem.read k) :
    rnw = false ∧ s.cfg.bpHitCommitsWrite = true ∧ k < s.cfg.memSize ∧ a.toNat = k ∧
      (debugStop a rnw s).mem.read k = s.lines.data := by
  obtain ⟨sent, room, ⟨-, h⟩ | ⟨rest, -, -, h⟩⟩ := debugStop_cases a rnw s
  · rw [h] at hne ⊢
    exact endHit_changed (s := { setHalted s with
      txq := s.txq ++ sent, trace := s.trace ++ sent.map Event.tx, txRoom := room }) hwf hne
  · rw [h] at hne
    exact absurd rfl hne

/-- A change of the store by an invocation is the byte the CPU presents at the address it writes; on a hit only where
a hit commits its write. -/
theorem busCycle_changed (hwf : s.mem.wf) (h : busCycle s = .next t) (hne : t.mem.read k ≠ s.mem.read k) :
    k < s.cfg.memSize ∧ (presentCycle s).lines.sample.addr.toNat = k ∧ (presentCycle s).lines.sample.rnw = false ∧
      t.mem.read k = (presentCycle s).lines.data ∧
      ((presentCycle s).lines.sample.addr ∈ s.bps → s.cfg.bpHitCommitsWrite = true) := by
  have hcfg : (presentCycle s).cfg = s.cfg := (presentCycle_does s).cfg_eq
  rw [← presentCycle_mem s] at hwf hne
  rw [← hcfg]
  rcases busCycle_cases s with ⟨-, he⟩ | ⟨-, -, he⟩ | ⟨hmiss, hr, he⟩
  all_goals cases he.symm.trans h
  · obtain ⟨hr, hcommit, hk, ha, hbyte⟩ := debugStop_changed hwf hne
    exact ⟨hk, ha, hr, hbyte, fun _ => hcommit⟩
  · exact absurd rfl hne
  · obtain ⟨hk, ha, hbyte⟩ := serveWrite_changed hwf hne
    exact ⟨hk, ha, hr, hbyte, fun hhit =>
      absurd ((bpContains_presentCycle_iff _ s).mpr hhit) (Bool.eq_false_iff.mp hmiss)⟩

/-- A change of the store by a load is the last of its data bytes whose address is the changed one. -/
theorem loadBytes_changed {a : Addr} {left i : Nat} (hwf : s.mem.wf)
    (hne : (loadBytes a left i s).mem.read k ≠ s.mem.read k) :
    k < s.cfg.memSize ∧ ∃ j, j < left ∧ (loadAddress a (i + j)).toNat = k ∧
      s.rxq[j]? = some ((loadBytes a left i s).mem.read k) := by
  induction left generalizing i s with
  | zero => exact absurd (by rw [loadBytes, respond_mem]) hne
  | succ left ih =>
    cases hq : s.rxq with
    | nil => exact absurd (by rw [loadBytes_nil a left i hq]) hne
    | cons b rest =>
      rw [loadBytes_cons a left i hq] at hne ⊢
      by_cases hv : (loadAddress a i).toNat < s.cfg.memSize
      · rw [if_pos hv] at hne ⊢
        have hwf' : (s.mem.write (loadAddress a i).toNat b).wf := wf_write hwf _ _
        generalize hs' : ({ s with rxq := rest, mem := s.mem.write (loadAddress a i).toNat b } : State) = s' at hne ⊢
        have hmem : s'.mem = s.mem.write (loadAddress a i).toNat b := by rw [← hs']
        have hrxq : s'.rxq = rest := by rw [← hs']
        have hcfg : s'.cfg = s.cfg := by rw [← hs']
        by_cases hlater : (loadBytes a left (i + 1) s').mem.read k = s'.mem.read k
        · obtain ⟨hk, ha, hbyte⟩ := guarded_write_changed hwf (m' := s'.mem) (by rw [hmem, if_pos hv]) (hlater ▸ hne)
          exact ⟨hk, 0, Nat.succ_pos _, ha, by rw [hlater, hbyte]; rfl⟩
        · obtain ⟨hk, j, hj, ha, hbyte⟩ := ih (hmem ▸ hwf') hlater
          refine ⟨hcfg ▸ hk, j + 1, by omega, ?_, by rw [← hbyte, hrxq]; rfl⟩
          rw [← ha, Nat.add_assoc, Nat.add_comm 1 j]
      · rw [if_neg hv] at hne
        have habort : ∀ w : State, (abortLoad a i left w).mem = w.mem := fun w => by
          unfold abortLoad
          split
          · exact (drainLoad_does a i left w).mem_eq (by decide)
          · exact respond_mem _ w
        exact absurd (by rw [habort]) hne

theorem resumeNotification_changed {bs : List Byte} {a : Addr} {rnw inStep : Bool} (hwf : s.mem.wf)
    (hne : (resumeNotification bs a rnw inStep s).mem.read k ≠ s.mem.read k) :
    rnw = false ∧ s.cfg.bpHitCommitsWrite = true ∧ k < s.cfg.memSize ∧ a.toNat = k ∧
      (resumeNotification bs a rnw inStep s).mem.read k = s.lines.data := by
  obtain ⟨sent, room, ⟨-, u, hu, h⟩ | ⟨rest, -, -, h⟩⟩ := resumeNotification_cases bs a rnw inStep s
  · have hmem : (resumeNotification bs a rnw inStep s).mem = u.mem := by
      rw [h]
      cases inStep with
      | true => exact (controllerTransition_does _).mem_eq (by decide)
      | false => rfl
    rw [hmem, hu] at hne ⊢
    exact endHit_changed (s := { s with
      txq := s.txq ++ sent, trace := s.trace ++ sent.map Event.tx, txRoom := room }) hwf hne
  · rw [h] at hne
    exact absurd rfl hne

/-! ### The commands of the channel -/

/-- Of the commands of the channel a `W` and an `L` change the store, each at its own addresses. -/
theorem exec_command_changed {i : Instr} {cmd : List Byte} (henc : encode true i = .command cmd) (hwf : s.mem.wf)
    (h : exec i s = .next t) (hne : t.mem.read k ≠ s.mem.read k) :
    k < s.cfg.memSize ∧
      ((∃ a d, i = .write a d ∧ a.toNat = k ∧ t.mem.read k = d) ∨
       (∃ a size j, i = .load a size ∧ j < size.toNat ∧ (loadAddress a j).toNat = k ∧
         s.rxq[j]? = some (t.mem.read k))) := by
  cases i with
  | write a d =>
    have hmem : t.mem = (memWrite a d s).1.mem := by
      cases h
      split <;> exact respond_mem _ _
    obtain ⟨hk, ha, hbyte⟩ := guarded_write_changed hwf (by rw [hmem, memWrite_state]) hne
    exact ⟨hk, .inl ⟨a, d, rfl, ha, hbyte⟩⟩
  | load a size =>
    cases h
    obtain ⟨hk, j, hj, ha, hbyte⟩ := loadBytes_changed hwf hne
    exact ⟨hk, .inr ⟨a, size, j, rfl, hj, by rwa [Nat.zero_add] at ha, hbyte⟩⟩
  | reset | halt | cont | stepOne | read | setBreakpoint | getRegisters | unknown =>
    exact absurd (by rw [(exec_does h).mem_eq (by simp [effectsOf])]) hne
  | busBpHit | busRead | busWrite => cases henc

/-! ### The step -/

/-- The byte that a step which serves a bus cycle changes. -/
theorem Served.changed (h : Served s p u t) (hwf : s.mem.wf) (hne : t.mem.read k ≠ s.mem.read k) :
    k < s.cfg.memSize ∧ (cycleServed s).sample.addr.toNat = k ∧ (cycleServed s).sample.rnw = false ∧
      t.mem.read k = (cycleServed s).data ∧
      ((cycleServed s).sample.addr ∈ s.bps → s.cfg.bpHitCommitsWrite = true) := by
  have hafter : t.mem = u.mem := h.after_does.mem_eq (by decide)
  rw [hafter] at hne ⊢
  rw [← h.stored] at hwf hne
  have hchanged := busCycle_changed hwf h.cycle hne
  rwa [h.presented, h.ready.cfg_eq, h.bps_eq] at hchanged

/-! ### The obligation -/

/-- Settles O57: each kind of step with the byte that it can change: a command, a served cycle, the rest of a load,
the rest of a notification; no other step writes the store. -/
theorem memoryChangesOnlyByWriteTransactions : Obligations.MemoryChangesOnlyByWriteTransactions := by
  unfold Obligations.MemoryChangesOnlyByWriteTransactions
  intro s t k hwf h hne
  have hpoll : (pollHost s).mem.wf := (pollHost_mem s).symm ▸ hwf
  rcases step_cases s with ⟨i, rest, htaken, he⟩ | ⟨got, e, -, -, -, he⟩ | ⟨-, -, -, hserves, he⟩ | ⟨-, -, -, he⟩ |
    ⟨a, i, left, hp, he⟩ | ⟨a, i, left, -, he⟩ | ⟨hp, hserves, he⟩ | ⟨bs, -, he⟩ | ⟨bs, a, rnw, inStep, hp, he⟩
  · obtain ⟨cmd, henc⟩ := commandTaken_isCommand htaken
    obtain ⟨hk, ⟨a, d, rfl, ha, hd⟩ | ⟨a, size, j, rfl, hj, ha, hbyte⟩⟩ :=
      exec_command_changed (s := { pollHost s with rxq := rest, phase := .atLoop }) henc hpoll (he.symm.trans h)
        (by rwa [← pollHost_mem s] at hne)
    · exact ⟨by rwa [pollHost_cfg] at hk, .inr (.inl ⟨a, d, rest, htaken, ha, hd⟩)⟩
    · exact ⟨by rwa [pollHost_cfg] at hk, .inr (.inr (.inl ⟨a, size, rest, j, htaken, hj, ha, hbyte⟩))⟩
  · cases he.symm.trans h
    exact absurd (by rw [pollHost_mem]) hne
  · obtain ⟨hk, hcycle⟩ := (served_atLoop (he.symm.trans h)).changed hwf hne
    exact ⟨hk, .inl ⟨hserves, hcycle⟩⟩
  · cases he.symm.trans h
    exact absurd (by rw [pollHost_mem]) hne
  · cases he.symm.trans h
    obtain ⟨hk, j, hj, ha, hbyte⟩ := loadBytes_changed hpoll (by rwa [pollHost_mem])
    exact ⟨by rwa [pollHost_cfg] at hk, .inr (.inr (.inr (.inl ⟨a, i, left, j, hp, hj, ha, hbyte⟩)))⟩
  · cases he.symm.trans h
    exact absurd (by rw [(drainLoad_does a i left _).mem_eq (by decide), pollHost_mem]) hne
  · obtain ⟨u, hu⟩ := served_stepping hp (he.symm.trans h)
    obtain ⟨hk, hcycle⟩ := hu.changed hwf hne
    exact ⟨hk, .inl ⟨hserves, hcycle⟩⟩
  · cases he.symm.trans h
    exact absurd (by rw [(sendResponse_does bs _).mem_eq (by decide), pollHost_mem]) hne
  · cases he.symm.trans h
    obtain ⟨rfl, hcommit, hk, ha, hbyte⟩ := resumeNotification_changed hpoll (by rwa [pollHost_mem])
    rw [pollHost_cfg] at hcommit hk
    rw [pollHost_lines] at hbyte
    exact ⟨hk, .inr (.inr (.inr (.inr ⟨bs, a, inStep, hp, hcommit, ha, hbyte⟩)))⟩

end Sys2Proof.Machine

/-! ## The load: every outcome of L, its waits, and a whole L in the queue (R127, R153) -/

namespace Sys2Proof.Machine

variable {s u : State} {a : Addr}

/-! ### An abort, with and without the drain -/

/-- A load whose first bytes have valid addresses and whose next one has not: the bytes are stored, and the failing
one is taken (R127). -/
theorem exec_load_aborts {size : U16} {front q : List Byte} {b : Byte} (hq : s.rxq = front ++ b :: q)
    (hlen : front.length < size.toNat) (hvalid : ∀ j, j < front.length → (loadAddress a j).toNat < s.cfg.memSize)
    (hinvalid : s.cfg.memSize ≤ (loadAddress a front.length).toNat) :
    exec (.load a size) s = .next (abortLoad a front.length (size.toNat - front.length - 1)
      { s with rxq := q, mem := storeBytes a 0 front s.mem }) := by
  obtain ⟨left, hleft⟩ := Nat.exists_eq_add_of_lt hlen
  have hload := loadBytes_append (a := a) (left + 1) 0 hq (by simpa using hvalid)
  rw [← Nat.add_assoc, ← hleft, Nat.zero_add, loadBytes_cons _ _ _ rfl, if_neg (by simpa using hinvalid)] at hload
  have hcount : size.toNat - front.length - 1 = left := by omega
  rw [hcount]
  exact congrArg Host.Outcome.next hload

theorem abortLoad_of_drains (i left : Nat) (h : s.cfg.loadAbortDrains = true) :
    abortLoad a i left s = drainLoad a i left s := by
  simp [abortLoad, h]

/-- A drain that finds all its bytes takes them and reports. -/
theorem drainLoad_complete {i : Nat} {back rest : List Byte} (hq : s.rxq = back ++ rest) :
    drainLoad a i back.length s = raiseError (.partialLoadFailure a i) { s with rxq := rest } := by
  rcases drainLoad_spec a i back.length s with ⟨hlt, -⟩ | ⟨-, he⟩
  · simp [hq] at hlt
  · rw [he, hq, List.drop_left]

/-- A drain that lacks bytes takes what has arrived and waits. -/
theorem drainLoad_waits {i left : Nat} (h : s.rxq.length < left) :
    drainLoad a i left s = { s with rxq := [], phase := .draining a i (left - s.rxq.length) } := by
  rcases drainLoad_spec a i left s with ⟨-, he⟩ | ⟨hle, -⟩
  · exact he
  · omega

/-- The bytes before, at and after an offset. -/
theorem exists_split_at {α : Type} {xs : List α} {i : Nat} (h : i < xs.length) :
    ∃ front x back, xs = front ++ x :: back ∧ front.length = i :=
  ⟨xs.take i, xs[i], xs.drop (i + 1), by simp, by simp; omega⟩

/-- The store after the front of the data bytes: each of them at its own address, every other cell as it was. -/
theorem storeBytes_written {front back : List Byte} {m : Memory} (hwf : m.wf) (hlen : front.length ≤ 65536) :
    (storeBytes a 0 front m).wf ∧
    (∀ i b, i < front.length → (front ++ back)[i]? = some b →
      (storeBytes a 0 front m).read (loadAddress a i).toNat = b) ∧
    (∀ k, (∀ i, i < front.length → (loadAddress a i).toNat ≠ k) → (storeBytes a 0 front m).read k = m.read k) := by
  refine ⟨wf_storeBytes a 0 front hwf, fun i b hi hb => ?_, fun k hk => read_storeBytes_other hwf (by simpa using hk)⟩
  rw [List.getElem?_append_left hi] at hb
  rw [← Nat.zero_add i]
  exact read_storeBytes hwf hlen hb

/-! ### A wait inside the load or inside its drain -/

/-- A drain does not read the place it starts from. -/
theorem drainLoad_with_phase (p : Phase) (i left : Nat) (s : State) :
    drainLoad a i left { s with phase := p } = drainLoad a i left s := by
  induction left generalizing s with
  | zero => exact sendResponse_phase _ p s
  | succ left ih =>
    cases hq : s.rxq with
    | nil => simp [drainLoad, rxByte, hq]
    | cons b rest =>
      simp only [drainLoad, rxByte, hq]
      exact ih { s with rxq := rest }

theorem abortLoad_with_phase (p : Phase) (i left : Nat) (s : State) :
    abortLoad a i left { s with phase := p } = abortLoad a i left s := by
  unfold abortLoad
  split
  · exact drainLoad_with_phase p i left s
  · exact sendResponse_phase _ p s

/-- A load does not read the place it starts from. -/
theorem loadBytes_with_phase (p : Phase) (left i : Nat) (s : State) :
    loadBytes a left i { s with phase := p } = loadBytes a left i s := by
  induction left generalizing i s with
  | zero => exact sendResponse_phase _ p s
  | succ left ih =>
    by_cases hq : s.rxq = []
    · rw [loadBytes_nil a left i hq, loadBytes_nil a left i (s := { s with phase := p }) hq]
    · obtain ⟨b, rest, hq⟩ := List.exists_cons_of_ne_nil hq
      rw [loadBytes_cons a left i hq, loadBytes_cons a left i (s := { s with phase := p }) hq]
      split
      · exact ih (i + 1) { s with rxq := rest, mem := s.mem.write (loadAddress a i).toNat b }
      · exact abortLoad_with_phase p i left { s with rxq := rest }

/-- A response is no wait for a data byte. -/
theorem respond_phase_ne (x : Text) (s : State) :
    (∀ b i l, (respond x s).phase ≠ .loading b i l) ∧ ∀ b i l, (respond x s).phase ≠ .draining b i l := by
  obtain ⟨sent, rest, room, -, h⟩ := sendResponse_spec (textBytes x) s
  rw [respond, h]
  constructor <;> intro b i l hp <;> simp only at hp <;> split at hp <;> cases hp

theorem drainLoad_phase_ne_loading (i left : Nat) (s : State) :
    ∀ b j l, (drainLoad a i left s).phase ≠ .loading b j l := by
  rcases drainLoad_spec a i left s with ⟨-, h⟩ | ⟨-, h⟩
  · rw [h]
    exact fun b j l hp => nomatch hp
  · rw [h]
    exact (respond_phase_ne _ _).1

/-- A drain that waited goes on with the bytes that then arrive as if they had been there (D17). -/
theorem drainLoad_resumes {b : Addr} {i left j l : Nat} (later : List Byte)
    (h : (drainLoad a i left s).phase = .draining b j l) :
    advance { drainLoad a i left s with rxq := later } =
      .next (drainLoad a i left { s with rxq := s.rxq ++ later }) := by
  induction left generalizing s with
  | zero => exact absurd h ((respond_phase_ne _ _).2 b j l)
  | succ left ih =>
    cases hq : s.rxq with
    | nil =>
      have hwait : drainLoad a i (left + 1) s = { s with phase := .draining a i (left + 1) } := by
        simp [drainLoad, rxByte, hq]
      rw [hwait, advance_draining rfl, List.nil_append]
      exact congrArg Host.Outcome.next (drainLoad_with_phase _ i (left + 1) { s with rxq := later })
    | cons c rest =>
      simp only [drainLoad, rxByte, hq, List.cons_append] at h ⊢
      exact ih h

/-- A load that waited goes on with the bytes that then arrive as if they had been there (D17). -/
theorem loadBytes_resumes {b : Addr} {left i j l : Nat} (later : List Byte)
    (h : (loadBytes a left i s).phase = .loading b j l) :
    advance { loadBytes a left i s with rxq := later } =
      .next (loadBytes a left i { s with rxq := s.rxq ++ later }) := by
  induction left generalizing i s with
  | zero => exact absurd h ((respond_phase_ne _ _).1 b j l)
  | succ left ih =>
    cases hq : s.rxq with
    | nil =>
      rw [loadBytes_nil a left i hq, advance_loading rfl, List.nil_append]
      exact congrArg Host.Outcome.next (loadBytes_with_phase _ (left + 1) i { s with rxq := later })
    | cons c rest =>
      have hmore : ({ s with rxq := c :: rest ++ later } : State).rxq = c :: (rest ++ later) := rfl
      rw [loadBytes_cons a left i hq] at h ⊢
      rw [loadBytes_cons a left i hmore]
      by_cases hv : (loadAddress a i).toNat < s.cfg.memSize
      · rw [if_pos hv] at h ⊢
        rw [if_pos hv]
        exact ih h
      · rw [if_neg hv] at h
        unfold abortLoad at h
        split at h
        · exact absurd h (drainLoad_phase_ne_loading i left _ b j l)
        · exact absurd h ((respond_phase_ne _ _).1 b j l)

/-! ### The obligations -/

/-- Settles O38: the success by `exec_load_complete`, the abort by `exec_load_aborts` with or without the drain, the
wait by `exec_load_waits`; what is stored by `storeBytes_written` (D11, D12). -/
theorem loadCommandWritesInOrder : Obligations.LoadCommandWritesInOrder := by
  unfold Obligations.LoadCommandWritesInOrder
  intro s a size data rest hwf written
  have hsize : size.toNat < 65536 := size.isLt
  have hwritten : ∀ front back, data = front ++ back → front.length ≤ 65536 →
      written front.length (storeBytes a 0 front s.mem) := fun front back hdata hlen => by
    have hstored := storeBytes_written (a := a) (back := back) hwf hlen
    rw [← hdata] at hstored
    exact hstored
  have hwhole : data = data ++ [] := (List.append_nil data).symm
  refine ⟨fun hq hlen hvalid => ?complete, fun i hi hvalid hinvalid => ?abort, fun hq hlen hvalid => ?waits⟩
  case complete =>
    rw [← hlen] at hvalid
    exact ⟨_, hlen ▸ hwritten data [] hwhole (by omega), exec_load_complete hq hlen hvalid⟩
  case waits => exact ⟨_, hwritten data [] hwhole (by omega), exec_load_waits hq hlen hvalid⟩
  case abort =>
    have haborts : i < data.length → ∀ q, s.rxq = data ++ q → ∃ front b back, data = front ++ b :: back ∧
        front.length = i ∧ exec (.load a size) s = .next (abortLoad a i (size.toNat - i - 1)
          { s with rxq := back ++ q, mem := storeBytes a 0 front s.mem }) := fun hlt q hq => by
      obtain ⟨front, b, back, hdata, rfl⟩ := exists_split_at hlt
      rw [hdata, List.append_assoc, List.cons_append] at hq
      exact ⟨front, b, back, hdata, rfl, exec_load_aborts hq hi hvalid hinvalid⟩
    refine ⟨fun hdrain hq hlen => ?_, fun hdrain hq hlen => ?_, fun hdrain hq hlt hlen => ?_⟩
    · obtain ⟨front, b, back, hdata, rfl, he⟩ := haborts (by omega) rest hq
      have hback : back = [] := by
        rw [hdata, List.length_append, List.length_cons] at hlen
        exact List.eq_nil_of_length_eq_zero (by omega)
      refine ⟨_, hwritten front _ hdata (by omega), he.trans ?_⟩
      simp [abortLoad, hdrain, hback]
    · obtain ⟨front, b, back, hdata, rfl, he⟩ := haborts (by omega) rest hq
      have hleft : size.toNat - front.length - 1 = back.length := by
        rw [hdata, List.length_append, List.length_cons] at hlen
        omega
      refine ⟨_, hwritten front _ hdata (by omega), he.trans ?_⟩
      rw [abortLoad_of_drains, hleft, drainLoad_complete (rest := rest)]
      · rfl
      · exact hdrain
    · obtain ⟨front, b, back, hdata, rfl, he⟩ := haborts hlt [] (by rwa [List.append_nil])
      have hlength : data.length = front.length + (back.length + 1) := by
        rw [hdata, List.length_append, List.length_cons]
      have hleft : size.toNat - front.length - 1 - back.length = size.toNat - data.length := by omega
      refine ⟨_, hwritten front _ hdata (by omega), he.trans ?_⟩
      rw [List.append_nil, abortLoad_of_drains, drainLoad_waits, ← hleft]
      · show back.length < size.toNat - front.length - 1
        omega
      · exact hdrain

/-- Settles O40: a wait leaves the rest of the loop to be done, from the byte that it waits for (D17). -/
theorem loadContinuesWhereItWaited : Obligations.LoadContinuesWhereItWaited := by
  unfold Obligations.LoadContinuesWhereItWaited
  refine ⟨?_, ?_⟩
  · rintro s u a a' left i l j later rfl - hwait
    exact loadBytes_resumes later hwait
  · rintro s u a a' left i l j later rfl - hwait
    exact drainLoad_resumes later hwait

/-- Settles O41: the command decodes from the queue, `exec_load_complete` stores its bytes, and an `M` of each finds
it. -/
theorem queuedLoadFillsTheStore : Obligations.QueuedLoadFillsTheStore := by
  unfold Obligations.QueuedLoadFillsTheStore
  intro s a data rest hwf hlen hp hq hroom hfit hsize
  have hstep := step_of_command hp (hq ▸ decodeCommand_encodeLoad a data rest)
  have haddr : ∀ j, j < data.length → (loadAddress a j).toNat = a.toNat + j := fun j hj =>
    loadAddress_toNat_of_lt (by omega)
  have hvalid : ∀ j, j < data.length → (loadAddress a j).toNat < s.cfg.memSize := fun j hj => by
    rw [haddr j hj]
    omega
  have hload := exec_load_complete (s := { pollHost s with rxq := data ++ rest }) (a := a) rfl
    (loadSize_toNat hlen).symm (by simpa only [pollHost_cfg] using hvalid)
  have hready := respond_ready .statusLoad
    (s := { pollHost s with rxq := rest, mem := storeBytes a 0 data (pollHost s).mem }) hroom
  refine ⟨_, hstep.trans (hload.trans (congrArg Host.Outcome.next hready)), rfl, rfl, pollHost_run s, pollHost_bps s,
    pollHost_cfg s, ?_, fun i b hi => ?_, fun k hk => ?_⟩
  · simp only [pollHost_txq]
  · obtain ⟨hlt, -⟩ := List.getElem?_eq_some_iff.mp hi
    refine exec_read_stored (by simpa only [pollHost_cfg] using hvalid i hlt) ?_
    simp only [pollHost_mem]
    rw [haddr i hlt]
    exact read_storeBytes_run hwf (by omega) hi
  · simp only [pollHost_mem]
    exact read_storeBytes_outside_run hwf (by omega) hk

end Sys2Proof.Machine

/-! ## Runs over given cycles: repeated sampling (R39, R200), and the Step to its end (R107) and without one (R105) -/

namespace Sys2Proof.Machine

variable {s t u : State}

/-! ### One invocation on a channel that accepts every byte -/

/-- The store after one served cycle (R87 to R89, D4). -/
def cycleStore (cfg : Params) (bps : List Addr) (m : Memory) (c : BusLines) : Memory :=
  if c.sample.rnw = false ∧ (c.sample.addr ∈ bps → cfg.bpHitCommitsWrite = true) ∧
      c.sample.addr.toNat < cfg.memSize then
    m.write c.sample.addr.toNat c.data
  else m

/-- What a served cycle sends: the notification of a hit (R87, D5). -/
def cycleNote (bps : List Addr) (c : BusLines) : List Byte :=
  if c.sample.addr ∈ bps then textBytes (.breakpointReached c.sample.addr) else []

/-- The breakpoint stop on a channel that accepts every byte, as one update; it makes no clock event. -/
theorem debugStop_ready_update (c : BusLines) (hlines : s.lines = c) (hroom : s.txRoom = none)
    (hhit : c.sample.addr ∈ s.bps) :
    ∃ es, .clkAssert ∉ es ∧ .clkDeassert ∉ es ∧ debugStop c.sample.addr c.sample.rnw s = { s with
      run := .halted, clk := false, doe := false, mem := cycleStore s.cfg s.bps s.mem c,
      txq := s.txq ++ textBytes (.breakpointReached c.sample.addr), trace := s.trace ++ es } := by
  obtain ⟨es, m, hend, hes, hm⟩ := endHit_spec c.sample.addr c.sample.rnw
    (deliver (textBytes (.breakpointReached c.sample.addr)) (setHalted s))
  have hclock : ∀ e, e = Event.clkAssert ∨ e = Event.clkDeassert →
      e ∉ (textBytes (.breakpointReached c.sample.addr)).map Event.tx ++ es := fun e he hmem => by
    rcases List.mem_append.mp hmem with hmem | hmem
    · obtain ⟨b, -, rfl⟩ := List.mem_map.mp hmem
      rcases he with he | he <;> cases he
    · rcases he with rfl | rfl <;> cases hes _ hmem
  have hstore : m = cycleStore s.cfg s.bps s.mem c := by
    rw [hm, cycleStore]
    simp [hhit, hlines]
  refine ⟨_, hclock _ (.inl rfl), hclock _ (.inr rfl), ?_⟩
  rw [debugStop_ready _ _ hroom, hend, hstore, ← List.append_assoc]
  rfl

/-- The state after an invocation on a channel that accepts every byte: `d` is then in `DOUT`, `es` are its events. -/
def afterCycle (c : BusLines) (cs : List BusLines) (d : Byte) (es : List Event) (s : State) : State :=
  { s with
    lines := c, cpuIn := cs, dout := d, doe := false, mem := cycleStore s.cfg s.bps s.mem c,
    run := if c.sample.addr ∈ s.bps then .halted else s.run,
    clk := if c.sample.addr ∈ s.bps then false else s.clk,
    txq := s.txq ++ cycleNote s.bps c, trace := s.trace ++ es }

/-- An invocation on a channel that accepts every byte is that one update; it makes no clock event. -/
theorem busCycle_ready {c : BusLines} {cs : List BusLines} (hroom : s.txRoom = none) (hcpu : s.cpuIn = c :: cs) :
    ∃ d es, .clkAssert ∉ es ∧ .clkDeassert ∉ es ∧ busCycle s = .next (afterCycle c cs d es s) := by
  have hp : presentCycle s = { s with lines := c, cpuIn := cs } := presentCycle_script hcpu
  by_cases hhit : c.sample.addr ∈ s.bps
  · obtain ⟨es, hassert, hdeassert, hstop⟩ :=
      debugStop_ready_update (s := { s with lines := c, cpuIn := cs }) c rfl hroom hhit
    refine ⟨s.dout, es, hassert, hdeassert, ?_⟩
    rw [busCycle_of_hit (by rwa [hp]), hp]
    refine (congrArg Host.Outcome.next hstop).trans ?_
    simp only [afterCycle, if_pos hhit, cycleNote]
  · have hmiss : (presentCycle s).lines.sample.addr ∉ s.bps := by rwa [hp]
    cases hr : c.sample.rnw with
    | true =>
      refine ⟨(memRead c.sample.addr s).1, [.drive (memRead c.sample.addr s).1, .release], by simp, by simp, ?_⟩
      rw [busCycle_of_read hmiss (by rwa [hp]), hp]
      refine (congrArg Host.Outcome.next (serveRead_eq c.sample.addr { s with lines := c, cpuIn := cs })).trans ?_
      simp [afterCycle, cycleStore, cycleNote, hhit, hr,
        memRead_congr (s := { s with lines := c, cpuIn := cs }) (t := s) rfl rfl]
    | false =>
      refine ⟨s.dout, [.release], by simp, by simp, ?_⟩
      rw [busCycle_of_write hmiss (by rwa [hp]), hp, exec_busWrite]
      simp [afterCycle, cycleStore, cycleNote, hhit, hr]

/-! ### The store over a sequence of cycles -/

theorem wf_cycleStore {cfg : Params} {bps : List Addr} {m : Memory} (h : m.wf) (c : BusLines) :
    (cycleStore cfg bps m c).wf := by
  unfold cycleStore
  split
  · exact wf_write h _ _
  · exact h

/-- Serving one cycle twice stores what serving it once stores (R39). -/
theorem cycleStore_twice {cfg : Params} {bps : List Addr} {m : Memory} (h : m.wf) (c : BusLines) :
    cycleStore cfg bps (cycleStore cfg bps m c) c = cycleStore cfg bps m c := by
  unfold cycleStore
  split
  · exact write_write_same h _ _ _
  · rfl

/-- On a bus that is kept up the sampled cycles store what the performed ones store (R200). -/
theorem BusKeptUp.foldl_cycleStore {performed sampled : List BusLines} (h : BusKeptUp performed sampled) (cfg : Params)
    (bps : List Addr) {m : Memory} (hwf : m.wf) :
    sampled.foldl (cycleStore cfg bps) m = performed.foldl (cycleStore cfg bps) m := by
  induction h generalizing m with
  | done => rfl
  | once c cs ds _ ih => exact ih (wf_cycleStore hwf c)
  | again c cs ds _ ih =>
    rw [← ih hwf]
    simp only [List.foldl_cons, cycleStore_twice hwf]

/-- The invocations for a list of answers, on a channel that accepts every byte, store the cycles in order. -/
theorem serveAll_ready (cycles : List BusLines) (hroom : s.txRoom = none) :
    ∃ u, serveAll cycles s = .next u ∧ u.mem = cycles.foldl (cycleStore s.cfg s.bps) s.mem := by
  induction cycles generalizing s with
  | nil => exact ⟨s, rfl, rfl⟩
  | cons c cs ih =>
    obtain ⟨d, es, -, -, hserve⟩ := busCycle_ready (s := { s with cpuIn := c :: s.cpuIn }) hroom rfl
    have hcycle : serveCycle c s = _ := hserve
    rw [serveAll, hcycle]
    exact ih hroom

/-! ### The main loop over scripted cycles -/

/-- From Running, with a host that sends nothing and accepts every byte and with no hit before the last sample, a
finite run that counts the samples serves exactly them (R150, R156). -/
theorem mainLoop_serves {sampled rest : List BusLines} (hp : s.phase = .atLoop) (hrun : sampled ≠ [] → s.run = .running)
    (hq : s.rxq = []) (hcpu : s.cpuIn = sampled ++ rest) (hhost : ∀ h ∈ s.hostIn, h.sends = [] ∧ h.room = none)
    (hlen : sampled.length ≤ s.hostIn.length) (hmiss : ∀ c ∈ sampled.dropLast, c.sample.addr ∉ s.bps) :
    ∃ u, finiteRun sampled.length sampled.length s = some u ∧ runSteps sampled.length s = .next u ∧
      u.phase = .atLoop ∧ u.rxq = [] ∧ u.cpuIn = rest ∧ u.mem = sampled.foldl (cycleStore s.cfg s.bps) s.mem := by
  induction sampled generalizing s with
  | nil =>
    have hend : atRunEnd 0 s = true := (atRunEnd_iff 0 s).mpr ⟨fun h hh => (hhost h hh).1, hq, hp, .inr rfl⟩
    exact ⟨s, finiteRun_end 0 0 hend, rfl, hp, hq, hcpu, rfl⟩
  | cons c cs ih =>
    have hrunning := hrun (List.cons_ne_nil c cs)
    obtain ⟨h, hs, hin⟩ := List.exists_cons_of_length_pos (l := s.hostIn) (by simp at hlen; omega)
    rw [hin] at hhost hlen
    obtain ⟨hsends, hroom⟩ := hhost h List.mem_cons_self
    have hpoll : pollHost s = { s with hostIn := hs, txRoom := none } := by rw [pollHost_silent hin hsends, hroom]
    obtain ⟨d, es, -, -, hserve⟩ := busCycle_ready (s := { s with hostIn := hs, txRoom := none }) rfl hcpu
    have hcycle : step s = busCycle { s with hostIn := hs, txRoom := none } := by
      rw [step_atLoop hp, mainLoop_of_running (by rw [hpoll]; exact hq) ((pollHost_run s).trans hrunning), hpoll]
    have hstep := hcycle.trans hserve
    have hserves : servesCycle s :=
      .inr ⟨(pollHost_phase s).trans hp, by rw [hpoll]; exact hq, (pollHost_run s).trans hrunning⟩
    have hgoes : atRunEnd (cs.length + 1) s = false := by
      rw [Bool.eq_false_iff, Ne, atRunEnd_iff, hrunning]
      rintro ⟨-, -, -, hhalted | hcount⟩
      · cases hhalted
      · cases hcount
    have hrun' : cs ≠ [] → (if c.sample.addr ∈ s.bps then RunState.halted else s.run) = .running := fun hcs => by
      rw [if_neg (hmiss c (by rw [List.dropLast_cons_of_ne_nil hcs]; exact List.mem_cons_self)), hrunning]
    have hmiss' : ∀ d ∈ cs.dropLast, d.sample.addr ∉ s.bps := fun d hd => by
      have hcs : cs ≠ [] := by rintro rfl; simp at hd
      exact hmiss d (by rw [List.dropLast_cons_of_ne_nil hcs]; exact List.mem_cons_of_mem c hd)
    obtain ⟨u, hfinite, hruns, hu⟩ := ih (s := afterCycle c (cs ++ rest) d es { s with hostIn := hs, txRoom := none })
      hp hrun' hq rfl (fun g hg => hhost g (List.mem_cons_of_mem h hg)) (Nat.le_of_succ_le_succ hlen) hmiss'
    refine ⟨u, ?_, (runSteps_succ _ hstep).trans hruns, hu⟩
    rw [List.length_cons, finiteRun_step _ _ hgoes hstep, if_pos hserves]
    exact hfinite

/-! ### Rounds of the Step loop -/

/-- What a number of iterations of the Step loop leaves, whatever the controller's state: one clock pulse and one
invocation for each cycle, the notifications of the hits, the host's bytes waiting (R100, R101, R109). -/
structure StepRounds (s : State) (cycles rest : List BusLines) (turns later : List HostTurn) (t : State) : Prop where
  phase : t.phase = .stepping
  run : t.run = .halted
  cpuIn : t.cpuIn = rest
  hostIn : t.hostIn = later
  cfg : t.cfg = s.cfg
  bps : t.bps = s.bps
  rstn : t.rstn = s.rstn
  rxq : t.rxq = s.rxq ++ (turns.map HostTurn.sends).flatten
  txq : t.txq = s.txq ++ (cycles.map (cycleNote s.bps)).flatten
  mem : t.mem = cycles.foldl (cycleStore s.cfg s.bps) s.mem
  asserts : t.trace.count .clkAssert = s.trace.count .clkAssert + cycles.length
  deasserts : t.trace.count .clkDeassert = s.trace.count .clkDeassert + cycles.length

theorem StepRounds.none {rest : List BusLines} {later : List HostTurn} (hp : s.phase = .stepping) (hr : s.run = .halted)
    (hcpu : s.cpuIn = rest) (hhost : s.hostIn = later) : StepRounds s [] rest [] later s :=
  ⟨hp, hr, hcpu, hhost, rfl, rfl, rfl, by simp, by simp, rfl, rfl, rfl⟩

theorem StepRounds.append {cycles cycles' more rest : List BusLines} {turns turns' next later : List HostTurn}
    (h : StepRounds s cycles more turns next t) (h' : StepRounds t cycles' rest turns' later u) :
    StepRounds s (cycles ++ cycles') rest (turns ++ turns') later u where
  phase := h'.phase
  run := h'.run
  cpuIn := h'.cpuIn
  hostIn := h'.hostIn
  cfg := h'.cfg.trans h.cfg
  bps := h'.bps.trans h.bps
  rstn := h'.rstn.trans h.rstn
  rxq := by rw [h'.rxq, h.rxq]; simp
  txq := by rw [h'.txq, h.txq, h.bps]; simp
  mem := by rw [h'.mem, h.mem, h.cfg, h.bps, List.foldl_append]
  asserts := by rw [h'.asserts, h.asserts, List.length_append, Nat.add_assoc]
  deasserts := by rw [h'.deasserts, h.deasserts, List.length_append, Nat.add_assoc]

/-- The rounds do not speak of the controller's state. -/
theorem StepRounds.with_stepState {cycles rest : List BusLines} {turns later : List HostTurn}
    (h : StepRounds s cycles rest turns later t) (c : StepState) :
    StepRounds s cycles rest turns later { t with stepState := c } :=
  ⟨h.phase, h.run, h.cpuIn, h.hostIn, h.cfg, h.bps, h.rstn, h.rxq, h.txq, h.mem, h.asserts, h.deasserts⟩

/-- One machine step inside a Step, on a channel that accepts every byte: a round, and the controller's transition on
its SYNC sample (R100 to R103). -/
theorem step_round {c : BusLines} {cs : List BusLines} {h : HostTurn} {hs : List HostTurn} (hp : s.phase = .stepping)
    (hr : s.run = .halted) (hcpu : s.cpuIn = c :: cs) (hhost : s.hostIn = h :: hs) (hroom : h.room = none) :
    ∃ u, step s = .next (controllerTransition u) ∧ StepRounds s [c] cs [h] hs u ∧ u.lines = c ∧
      u.stepState = s.stepState ∧ u.clk = false ∧ u.doe = false ∧ u.txRoom = none := by
  have hpoll : pollHost s = { s with rxq := s.rxq ++ h.sends, txRoom := none, hostIn := hs } := by
    rw [pollHost_script hhost, hroom]
  obtain ⟨d, es, hassert, hdeassert, hserve⟩ := busCycle_ready (s := { s with
    rxq := s.rxq ++ h.sends, txRoom := none, hostIn := hs, clk := false,
    trace := s.trace ++ [.clkAssert, .clkDeassert] }) rfl hcpu
  have hloop : step s = stepIteration { s with rxq := s.rxq ++ h.sends, txRoom := none, hostIn := hs } := by
    rw [step_eq, advance_stepping ((pollHost_phase s).trans hp), hpoll]
  have hstep := hloop.trans (stepIteration_of_busCycle ((congrArg busCycle (clockPulse_eq _)).trans hserve))
  rw [afterResponder_of_stepping] at hstep
  swap
  · exact hp
  refine ⟨_, hstep, ⟨hp, ?_, rfl, rfl, rfl, rfl, rfl, by simp [afterCycle], by simp [afterCycle], rfl, ?_, ?_⟩,
    rfl, rfl, by simp [afterCycle], rfl, rfl⟩
  · simp [afterCycle, hr]
  · simp [afterCycle, List.count_eq_zero_of_not_mem hassert]
  · simp [afterCycle, List.count_eq_zero_of_not_mem hdeassert]

/-- While the exit of R103 is not met the transition stays in the loop, and remembers a SYNC that was seen. -/
theorem controllerTransition_stays (h : s.stepState = .awaitSyncFall → s.lines.syncAfter = true) :
    controllerTransition s =
      { s with stepState := if s.lines.syncAfter then .awaitSyncFall else s.stepState } := by
  rw [controllerTransition_cases]
  cases hstate : s.stepState with
  | awaitSyncRise => cases hsync : s.lines.syncAfter <;> simp [← hstate]
  | awaitSyncFall => simp [h hstate, ← hstate]

/-- A Step whose SYNC samples show no one followed by a zero is in its loop after each of them. -/
theorem runSteps_stepping {cycles rest : List BusLines} {turns later : List HostTurn} (hp : s.phase = .stepping)
    (hr : s.run = .halted) (hrise : cycles.Pairwise (fun c d => c.syncAfter = true → d.syncAfter = true))
    (hfall : s.stepState = .awaitSyncFall → ∀ c ∈ cycles, c.syncAfter = true)
    (hcpu : s.cpuIn = cycles ++ rest) (hhost : s.hostIn = turns ++ later) (hlen : turns.length = cycles.length)
    (hroom : ∀ h ∈ turns, h.room = none) :
    ∃ t, runSteps cycles.length s = .next t ∧ StepRounds s cycles rest turns later t ∧
      t.stepState = if cycles.any BusLines.syncAfter then .awaitSyncFall else s.stepState := by
  induction cycles generalizing s turns with
  | nil =>
    cases List.eq_nil_of_length_eq_zero hlen
    exact ⟨s, rfl, .none hp hr hcpu hhost, rfl⟩
  | cons c cs ih =>
    obtain ⟨h, hs, rfl⟩ := List.exists_cons_of_length_eq_add_one hlen
    obtain ⟨hhead, htail⟩ := List.pairwise_cons.mp hrise
    obtain ⟨u, hstep, hround, hlines, hstate, -⟩ := step_round hp hr hcpu hhost (hroom h List.mem_cons_self)
    have hstay : u.stepState = .awaitSyncFall → u.lines.syncAfter = true := fun hu =>
      hlines ▸ hfall (hstate ▸ hu) c List.mem_cons_self
    rw [controllerTransition_stays hstay, hstate] at hstep
    have hround' := hround.with_stepState (if u.lines.syncAfter then .awaitSyncFall else s.stepState)
    have hfall' : (if u.lines.syncAfter then StepState.awaitSyncFall else s.stepState) = .awaitSyncFall →
        ∀ d ∈ cs, d.syncAfter = true := fun hu d hd => by
      rw [hlines] at hu
      by_cases hsync : c.syncAfter = true
      · exact hhead d hd hsync
      · rw [if_neg hsync] at hu
        exact hfall hu d (List.mem_cons_of_mem c hd)
    obtain ⟨t, hruns, hrounds, hend⟩ := ih hround'.phase hround'.run htail hfall' hround'.cpuIn hround'.hostIn
      (by simpa using hlen) fun g hg => hroom g (List.mem_cons_of_mem h hg)
    refine ⟨t, (runSteps_succ _ hstep).trans hruns, hround'.append hrounds, hend.trans ?_⟩
    simp only [hlines]
    by_cases hsync : c.syncAfter = true <;> simp [hsync]

/-- A run over a number of steps goes on from where the first part of it ends. -/
theorem runSteps_add {k : Nat} (j : Nat) (h : runSteps k s = .next t) : runSteps (k + j) s = runSteps j t := by
  induction k generalizing s with
  | zero => cases h; rw [Nat.zero_add]
  | succ k ih =>
    obtain ⟨v, hv⟩ := step_answers s
    rw [runSteps_succ k hv] at h
    rw [Nat.add_right_comm, runSteps_succ (k + j) hv, ih h]

theorem runSteps_one (h : step s = .next t) : runSteps 1 s = .next t := runSteps_succ 0 h

/-- The notifications of a sequence of cycles, by the comparison with the table. -/
theorem map_cycleNote (cycles : List BusLines) (s : State) :
    (cycles.map fun c => if bpContains c.sample.addr s then textBytes (.breakpointReached c.sample.addr) else []) =
      cycles.map (cycleNote s.bps) :=
  List.map_congr_left fun c _ => by simp only [cycleNote, bpContains_iff_mem]

/-- Zeros and then ones show no one followed by a zero. -/
theorem pairwise_zeros_ones {zeros ones : List BusLines} (hzeros : ∀ c ∈ zeros, c.syncAfter = false)
    (hones : ∀ c ∈ ones, c.syncAfter = true) :
    (zeros ++ ones).Pairwise (fun c d => c.syncAfter = true → d.syncAfter = true) := by
  refine List.pairwise_append.mpr ⟨?_, ?_, fun _ _ d hd _ => hones d hd⟩
  · exact List.pairwise_of_forall_mem_list fun c hc d _ hsync => by rw [hzeros c hc] at hsync; cases hsync
  · exact List.pairwise_of_forall_mem_list fun c _ d hd _ => hones d hd

/-- What is sent on the host channel is no other event. -/
theorem count_map_tx {e : Event} (h : e.sentByte = none) (bs : List Byte) : (bs.map Event.tx).count e = 0 := by
  refine List.count_eq_zero.mpr fun hmem => ?_
  obtain ⟨b, -, rfl⟩ := List.mem_map.mp hmem
  cases h

/-! ### The obligations -/

/-- Settles O21: on the store the sampled cycles do what the performed ones do, and both the responder alone and the
main loop store the cycles that they serve (log entry 18). -/
theorem repeatedSamplingLeavesMemoryAlike : Obligations.RepeatedSamplingLeavesMemoryAlike := by
  unfold Obligations.RepeatedSamplingLeavesMemoryAlike
  intro s t performed sampled hwf hroom hkept ht
  have hsame := hkept.foldl_cycleStore s.cfg s.bps hwf
  obtain ⟨t', ht', hmem⟩ := serveAll_ready performed hroom
  cases ht'.symm.trans ht
  refine ⟨fun u hu => ?_, fun rest hp hr hq hcpu hhost hlen hmiss => ?_⟩
  · obtain ⟨u', hu', hmem'⟩ := serveAll_ready sampled hroom
    cases hu'.symm.trans hu
    rw [hmem', hsame, hmem]
  · obtain ⟨u, hfinite, hruns, hp', hq', hcpu', hmem'⟩ :=
      mainLoop_serves hp (fun _ => hr) hq hcpu hhost hlen hmiss
    exact ⟨u, hfinite, hruns, hp', hq', hcpu', by rw [hmem', hsame, hmem]⟩

/-- Settles O33: the zeros and the ones keep the Step in its loop, awaiting the fall; the round of the last sample
ends it with the status text (D9, D25, log entry 6). -/
theorem stepRunsToItsEnd : Obligations.StepRunsToItsEnd := by
  unfold Obligations.StepRunsToItsEnd
  intro s zeros ones last rest turns later cycles hp hr hstate hzeros hne hones hlast hcpu hhost hlen hroom
  obtain ⟨front, h, rfl⟩ : ∃ front h, turns = front ++ [h] := by
    have hturns : turns ≠ [] := List.ne_nil_of_length_eq_add_one (n := (zeros ++ ones).length) (by
      simpa [cycles, Nat.add_assoc] using hlen)
    exact ⟨_, _, (List.dropLast_append_getLast hturns).symm⟩
  have hseen : (zeros ++ ones).any BusLines.syncAfter = true := by
    obtain ⟨one, hone⟩ := List.exists_mem_of_ne_nil ones hne
    exact List.any_eq_true.mpr ⟨one, List.mem_append_right zeros hone, hones one hone⟩
  obtain ⟨w, hruns, hrounds, hfall⟩ := runSteps_stepping (cycles := zeros ++ ones) (rest := last :: rest)
    (turns := front) (later := h :: later) hp hr (pairwise_zeros_ones hzeros hones)
    (fun hf => by rw [hstate] at hf; cases hf) (by simpa [cycles] using hcpu)
    (by simpa using hhost) (by simp [cycles] at hlen ⊢; omega)
    fun g hg => hroom g (List.mem_append_left _ hg)
  rw [hseen, if_pos rfl] at hfall
  obtain ⟨v, hstep, hround, hlines, hstate', hclk, hdoe, hready⟩ := step_round hrounds.phase hrounds.run hrounds.cpuIn
    hrounds.hostIn (hroom h (List.mem_append_right _ List.mem_cons_self))
  have hall := hrounds.append hround
  have hexit : controllerTransition v = respond .statusStep v := by
    rw [controllerTransition_cases, hstate', hfall, hlines, hlast]
    rfl
  rw [hexit, respond_ready _ hready] at hstep
  obtain ⟨u, hserve, hmem⟩ := serveAll_ready cycles (s := { s with txRoom := none }) rfl
  have hcount : cycles.length = (zeros ++ ones).length + 1 := by simp [cycles]; omega
  refine ⟨{ v with
    txq := v.txq ++ textBytes .statusStep, trace := v.trace ++ (textBytes .statusStep).map Event.tx, phase := .atLoop },
    u, ?_, rfl, hall.run, hclk, hdoe, hstate'.trans hfall, hall.cpuIn, hall.hostIn, hall.rxq, hall.bps, hall.cfg,
    hall.rstn, ?_, ?_, ?_, hserve, hall.mem.trans hmem.symm⟩
  · rw [hcount, runSteps_add 1 hruns, runSteps_one hstep]
  · rw [List.count_append, count_map_tx rfl]
    exact hall.asserts
  · rw [List.count_append, count_map_tx rfl]
    exact hall.deasserts
  · rw [map_cycleNote]
    exact congrArg (· ++ textBytes .statusStep) hall.txq

/-- Settles O34: `runSteps_stepping` on the whole sequence, and on each front part of it, in which no end of a finite
run is reached (D9, D15, D25, log entries 6, 18). -/
theorem stepWithoutSyncFallNeverEnds : Obligations.StepWithoutSyncFallNeverEnds := by
  unfold Obligations.StepWithoutSyncFallNeverEnds
  intro s cycles rest turns later hp hr hstate hrise hcpu hhost hlen hroom
  have hfall : ∀ cs : List BusLines, s.stepState = .awaitSyncFall → ∀ c ∈ cs, c.syncAfter = true := fun cs hf => by
    rw [hstate] at hf
    cases hf
  obtain ⟨t, hruns, hrounds, -⟩ := runSteps_stepping hp hr hrise (hfall cycles) hcpu hhost hlen hroom
  refine ⟨fun left => finiteRun_eq_none left fun k hk u hu => ?_, t, hruns, hrounds.phase, hrounds.run, hrounds.rxq,
    hrounds.asserts, ?_⟩
  · obtain ⟨v, hv, hrounds', -⟩ := runSteps_stepping (cycles := cycles.take k) (rest := cycles.drop k ++ rest)
      (turns := turns.take k) (later := turns.drop k ++ later) hp hr (hrise.sublist (List.take_sublist k cycles))
      (hfall _) (by rw [← List.append_assoc, List.take_append_drop, hcpu])
      (by rw [← List.append_assoc, List.take_append_drop, hhost]) (by simp [hlen])
      fun g hg => hroom g (List.mem_of_mem_take hg)
    rw [List.length_take_of_le hk] at hv
    cases hv.symm.trans hu
    rw [hrounds'.phase]
    exact fun hloop => nomatch hloop
  · rw [map_cycleNote, hrounds.txq]

end Sys2Proof.Machine
